-- ==== Sys2Proof/Word.lean ====
section
/-! DEFINITION. Bytes, byte strings and the words of the block's channels (00_scope R12, R14; 30_encoding R49, R54). -/

namespace Sys2Proof

/-- A byte, value 0..255 (R14). -/
abbrev Byte := BitVec 8

/-- A 32-byte string: the digest and the key, indexed from 0 (R12, R14). -/
abbrev Key := Vector Byte 32

/-- A 16-byte string: the counter and the keystream block, indexed from 0 (R12, R14). -/
abbrev Block := Vector Byte 16

/-- A command word (R49). -/
abbrev CmdWord := BitVec 64

/-- A response word (R54). -/
abbrev RespWord := BitVec 64

/-- The STATUS word (R26). -/
abbrev StatusWord := BitVec 32

end Sys2Proof
end

