-- ==== Sys2Proof/Config.lean ====
section
/-! DEFINITION. What is fixed for the machine and not in the spec: the kernels `H` and `E` and the index `P`
(00_scope R9, R10, R11; D14, D15, D16). They have no body, so a statement about the model holds for every hash
kernel, every cipher kernel and every index. The candidates of 93_implementation_defined (G1, G2, G3) are not adopted. -/

namespace Sys2Proof.Config

/-- `H` (R9): a total function from byte strings of any length to 32 bytes. Log 1. -/
opaque hashKernel : List Byte → Key

/-- `E` (R10): a total function from a 32-byte key and a 16-byte block to a 16-byte block. Log 2. -/
opaque cipherKernel : Key → Block → Block

/-- `P` (R11): the digest byte that key derivation increments, one constant of the hardware. Log 3. -/
opaque perturbIndex : Fin 32

/-- `LEN_BITS` (R13): the width of a command word's length field. -/
def lenBits : Nat := 56

end Sys2Proof.Config
end

