-- ==== Sys2Proof/Syntax.lean ====
section
/-! DEFINITION. The commands of the KSG command set, one constructor per row of the opcode table (30_encoding R50). -/

namespace Sys2Proof

/-- A command. The operand is the length `n = LEN` of R51, a number: the rules of SEED and READ are stated for any
length, and the 56-bit bound belongs to the encoding (R13), so it stands in `Instr.WellFormed`. -/
inductive Instr where
  /-- SEED with `len` seed bytes, which follow on the seed data channel (R65). -/
  | seed (len : Nat)
  /-- READ of `len` keystream bytes (R70). -/
  | read (len : Nat)
  deriving DecidableEq, Repr

/-- The length operand (R51). -/
def Instr.len : Instr → Nat
  | .seed n => n
  | .read n => n

end Sys2Proof
end

