-- ==== Sys2Proof/WellFormed.lean ====
section
/-! DEFINITION. Which commands a command word can encode (00_scope R13, 30_encoding R51). -/

namespace Sys2Proof

/-- The length fits the 56-bit `LEN` field: 0 to 2^56 - 1 (R13, R51). A longer seed is refused here (R51, U10); a
longer read is written as several READs (R64). -/
abbrev Instr.WellFormed (i : Instr) : Prop := i.len < 2 ^ Config.lenBits

end Sys2Proof
end

