-- ==== Sys2Proof/Decode.lean ====
section
/-! DEFINITION. The decoder of command words, total, rejecting by name, and the encoder
(30_encoding R49, R50, R51, R52, R53, R62). -/

namespace Sys2Proof

/-- Why a command word is illegal (R52). -/
inductive DecodeError where
  /-- `RSV` is not 0. -/
  | reservedNotZero (rsv : BitVec 4)
  /-- `OPC` is neither 0x1 nor 0x2. -/
  | noSuchOpcode (opc : BitVec 4)
  deriving DecidableEq, Repr

/-- `OPC`, bits 3:0 (R49). -/
def opcField (w : CmdWord) : BitVec 4 := w.extractLsb' 0 4

/-- `RSV`, bits 7:4 (R49). -/
def rsvField (w : CmdWord) : BitVec 4 := w.extractLsb' 4 4

/-- `LEN`, bits 63:8 (R49). -/
def lenField (w : CmdWord) : BitVec 56 := w.extractLsb' 8 56

/-- The opcode values (R50). -/
def opcSeed : BitVec 4 := 0x1#4
def opcRead : BitVec 4 := 0x2#4

/-- The decoder (R62): test `RSV` and `OPC` (R52), then read `LEN` (R51). -/
def decode (w : CmdWord) : Except DecodeError Instr :=
  if rsvField w ≠ 0#4 then .error (.reservedNotZero (rsvField w))
  else if opcField w = opcSeed then .ok (.seed (lenField w).toNat)
  else if opcField w = opcRead then .ok (.read (lenField w).toNat)
  else .error (.noSuchOpcode (opcField w))

/-- A word from its fields (R49): `LEN` [63:8], `RSV` [7:4], `OPC` [3:0]. -/
def packCommand (len : BitVec 56) (rsv opc : BitVec 4) : CmdWord := len ++ (rsv ++ opc)

/-- The encoder (R49, R50, R51). -/
def encode : Instr → CmdWord
  | .seed n => packCommand (BitVec.ofNat 56 n) 0#4 opcSeed
  | .read n => packCommand (BitVec.ofNat 56 n) 0#4 opcRead

/-- The command word that the opcode table's `nbits` bits stand for: the bits above `nbits` are 0. Log 18. -/
def tableWord (nbits w : Nat) : CmdWord := BitVec.ofNat 64 (w % 2 ^ nbits)

/-- What the decoder reads from an instruction of the opcode table. -/
def decodeTableWord (nbits w : Nat) : Option Instr := (decode (tableWord nbits w)).toOption

end Sys2Proof
end

