-- ==== Sys2Proof/Machine/State.lean ====
section
/-! DEFINITION. The state of the block (10_state R18, R33), the channels around it (30_encoding R54, R56, R57, R59, R60,
R61), the reasons a step could stop, and the state after reset (R34, R94). -/

namespace Sys2Proof.Machine

/-- The result codes (R55). `LAST_CODE` holds no other value (R27). Log 5. -/
inductive Code where
  /-- 0x0, OK. -/
  | ok
  /-- 0x1, UninitializedState (R84). -/
  | uninitializedState
  /-- 0x2, IllegalCommand (R85). -/
  | illegalCommand
  deriving DecidableEq, Repr

/-- `PHASE` (R33), EMIT and RESPOND with the items that R61 has on offer in them. Log 21. -/
inductive Phase where
  /-- No command is in progress. -/
  | idle
  /-- A SEED is taking its seed bytes. Those taken so far are on the hash kernel port, not in the block (R25). -/
  | absorb
  /-- A READ of `len` bytes is producing output; `offered` is the byte on offer, if one is. -/
  | emit (len : Nat) (offered : Option Byte)
  /-- The response word on offer. -/
  | respond (word : RespWord)
  deriving DecidableEq, Repr

/-- One item that moved on a port. Of a seed byte and of a hash exchange only the fact is kept: seed and digest are not
retained (R25); what a hash exchange carries is said of the step that makes it (`HashExchange`). Log 8. -/
inductive Event where
  /-- A command word was accepted on the command port (R61). -/
  | cmd (word : CmdWord)
  /-- A seed byte was taken from the seed data channel (R56). -/
  | seed
  /-- One hash exchange (R59). -/
  | hash
  /-- One cipher exchange: the key and block vectors of the request and the result vector (R60, R41). -/
  | cipher (key : BitVec 256) (block result : BitVec 128)
  /-- A byte was taken by the host on the output channel (R57). -/
  | out (byte : Byte)
  /-- A response word was taken by the host on the response channel (R54). -/
  | resp (word : RespWord)
  /-- Reset was asserted (R95). -/
  | reset
  deriving DecidableEq, Repr

/-- Everything the spec gives the machine: the block's own state (R18, R33), down to `remain`; then the items on the
channels and ports around it. No field keeps the seed or the digest (R25). -/
structure State where
  /-- `KEY_VALID` (R19). -/
  keyValid : Bool
  /-- `KEY` (R20). -/
  key : Key
  /-- `CTR` (R21), byte 0 least significant (R36). -/
  ctr : Block
  /-- `KSB` (R22). -/
  ksb : Block
  /-- `CURSOR` (R23), in 0..16; 16 is "block exhausted". Log 5. -/
  cursor : Fin 17
  /-- `LAST_CODE` (R27). -/
  lastCode : Code
  /-- `ERR_STICKY` (R28). -/
  errSticky : Bool
  /-- `PHASE` (R33). -/
  phase : Phase
  /-- `REMAIN` (R33): seed bytes still to take or output bytes still to produce. Log 6. -/
  remain : Nat
  /-- Command words the host offers, the next one first (R61). Log 7. -/
  cmdIn : List CmdWord
  /-- Seed bytes the host offers, the next one first (R56). Log 7. -/
  seedIn : List Byte
  /-- The message gathering on the hash kernel port for the SEED in ABSORB: its seed bytes taken so far, in channel order (R40,
R59). The hash request carries it off, so outside ABSORB it is empty (R25). Log 10. -/
  hashMsg : List Byte
  /-- What has moved on the ports, oldest first; no rule reads it. Log 8. -/
  trace : List Event
  deriving DecidableEq, Repr

/-- The reasons a step could stop with a fault: none. Both errors of the block have an effect (R82, R83), waiting
is not an error (R61), and the kernels cannot fail (R90), so no step of this model faults. Log 17. -/
inductive Fault where
  deriving DecidableEq, Repr

/-- The reasons a step could have no meaning. -/
inductive Refusal where
  /-- Raised by an arm of `exec` whose instruction has no meaning yet (safe). No arm raises it. Log 17. -/
  | notModelled (mnemonic : String)
  deriving DecidableEq, Repr

/-- The state right after reset (R34, R94): `KEY_VALID`, `LAST_CODE`, `ERR_STICKY` 0 and `PHASE` IDLE, as the spec
says; `KEY`, `CTR`, `KSB`, `CURSOR`, `REMAIN` are unspecified there and hold the values log 4 names; nothing is offered
and nothing has moved. -/
def State.reset : State where
  keyValid := false
  key := Vector.replicate 32 0#8
  ctr := Vector.replicate 16 0#8
  ksb := Vector.replicate 16 0#8
  cursor := 0
  lastCode := .ok
  errSticky := false
  phase := .idle
  remain := 0
  cmdIn := []
  seedIn := []
  hashMsg := []
  trace := []

end Sys2Proof.Machine
end

