-- ==== Sys2Proof/Machine/Flags.lean ====
section
/-! DEFINITION. Result codes, the STATUS word and the response word (10_state R26, R27, R28; 30_encoding R54, R55, R58). -/

namespace Sys2Proof.Machine

/-- The 4-bit value of a result code (R55). -/
def Code.bits : Code → BitVec 4
  | .ok => 0x0#4
  | .uninitializedState => 0x1#4
  | .illegalCommand => 0x2#4

/-- The STATUS word the status port drives at all times (R26, R58): `SEEDED` [0], `ERR_STICKY` [1], reserved [3:2],
`LAST_CODE` [7:4], reserved [31:8]. Log 22. -/
def State.status (s : State) : StatusWord :=
  0#24 ++ (s.lastCode.bits ++ (0#2 ++ (BitVec.ofBool s.errSticky ++ BitVec.ofBool s.keyValid)))

/-- A response word (R54): `CODE` [3:0], `SEEDED` [4], reserved [7:5], `COUNT` [63:8]. -/
def responseWord (code : Code) (seeded : Bool) (count : Nat) : RespWord :=
  BitVec.ofNat 56 count ++ (0#3 ++ (BitVec.ofBool seeded ++ code.bits))

/-- Writes `LAST_CODE` (R27) and sets `ERR_STICKY` when the code is not OK (R28). -/
def recordCode (code : Code) (s : State) : State :=
  { s with lastCode := code, errSticky := s.errSticky || decide (code ≠ .ok) }

end Sys2Proof.Machine
end

