-- ==== Sys2Proof/Machine/Operands.lean ====
section
/-! DEFINITION. Where a command's operands come from: the command port and the seed data channel
(00_scope R16; 30_encoding R56, R61). -/

namespace Sys2Proof.Machine

/-- Appends what moved on the ports. Log 8. -/
def record (es : List Event) (s : State) : State :=
  { s with trace := s.trace ++ es }

/-- Accepts one command word, if the host offers one (R61). -/
def acceptCommand (s : State) : Option (CmdWord × State) :=
  match s.cmdIn with
  | [] => none
  | w :: ws => some (w, record [.cmd w] { s with cmdIn := ws })

/-- Takes the next `k` seed bytes in channel order (R16 `SeedIn`, R40, R56), or those offered if they are fewer: they go to
the hash kernel port (R59) and are counted off `REMAIN` (R61). Log 10. -/
def takeSeed (k : Nat) (s : State) : State :=
  let bs := s.seedIn.take k
  record (List.replicate bs.length .seed)
    { s with seedIn := s.seedIn.drop k, remain := s.remain - bs.length, hashMsg := s.hashMsg ++ bs }

end Sys2Proof.Machine
end

