-- ==== Sys2Proof/Machine/Ops.lean ====
section
/-! DEFINITION. The steps the commands are built from: byte order (20_memory R36 to R41), key derivation (40_seed R66,
R67), counter increment, refill and emit (41_read R71, R72, R73), responding (30_encoding R54), raising an error
(60_exceptions R83) and reset (70_reset_and_hazards R94, R95). -/

namespace Sys2Proof.Machine

/-! Byte order. -/

/-- The number that a byte string stands for, byte 0 least significant (R15 `val`, R36). -/
def leVal : List Byte → Nat
  | [] => 0
  | b :: bs => b.toNat + 256 * leVal bs

/-- `val(c)` (R15). -/
def Block.val (c : Block) : Nat := leVal c.toList

/-- `LE16(k)` (R15). -/
def LE16 (k : Nat) : Block :=
  Vector.ofFn fun i : Fin 16 => BitVec.ofNat 8 (k % 2 ^ 128 / 256 ^ i.val)

/-- `0^16` (R14). -/
def zeroBlock : Block := Vector.replicate 16 0#8

/-- A key or digest on its 256-bit port vector: byte `i` at bits `[8i+7:8i]` (R41). -/
def wireKey (k : Key) : BitVec 256 := BitVec.ofNat 256 (leVal k.toList)

/-- A block on its 128-bit port vector: byte `i` at bits `[8i+7:8i]` (R41). -/
def wireBlock (b : Block) : BitVec 128 := BitVec.ofNat 128 (leVal b.toList)

/-! Key derivation. -/

/-- `Perturb(d)` (R67): byte `P` is incremented modulo 256, with no carry. -/
def perturb (d : Key) : Key :=
  d.set Config.perturbIndex (d[Config.perturbIndex] + 1#8)

/-- `DeriveKey(m) = Perturb(H(m))` (R66). -/
def deriveKey (m : List Byte) : Key := perturb (Config.hashKernel m)

/-- What one exchange on the hash kernel port carries: the message, and the digest as a 256-bit vector (R59, R41). -/
structure HashExchange where
  message : List Byte
  digest : BitVec 256
  deriving DecidableEq, Repr

/-- The exchange that a request with message `m` makes (R59). -/
def hashExchange (m : List Byte) : HashExchange := ⟨m, wireKey (Config.hashKernel m)⟩

/-- The state writes of SEED once its seed `m` is taken (R65): one hash request, which carries `m` off, then `KEY`, `CTR`,
`CURSOR` and `KEY_VALID`; `KSB` is not written, and neither `m` nor the digest stays (R25). -/
def loadSeed (m : List Byte) (s : State) : State :=
  record [.hash]
    { s with key := deriveKey m, ctr := zeroBlock, cursor := 16, keyValid := true, hashMsg := [] }

/-! The keystream. -/

/-- The loop of `CtrInc` (R71) from one byte on: add 1 modulo 256, stop unless it wrapped to 0, else go on to the
next byte; past the last byte the carry is discarded. -/
def carryInc : List Byte → List Byte
  | [] => []
  | b :: bs => if b + 1#8 ≠ 0#8 then (b + 1#8) :: bs else 0#8 :: carryInc bs

theorem carryInc_length (bs : List Byte) : (carryInc bs).length = bs.length := by
  induction bs with
  | nil => rfl
  | cons b bs ih => simp only [carryInc]; split <;> simp [ih]

/-- `CtrInc(c)` (R71), from byte index 0 over the 16 bytes. -/
def ctrInc (c : Block) : Block :=
  ⟨(carryInc c.toList).toArray, by simp [carryInc_length]⟩

/-- `Refill()` (R72): the counter is incremented, then encrypted (one cipher request, R60), and the cursor returns to 0. -/
def refill (s : State) : State :=
  let c := ctrInc s.ctr
  let b := Config.cipherKernel s.key c
  record [.cipher (wireKey s.key) (wireBlock c) (wireBlock b)] { s with ctr := c, ksb := b, cursor := 0 }

/-- Reads `KSB[i]` and advances the cursor past it (R73, R38). -/
def byteAt (i : Fin 16) (s : State) : Byte × State :=
  (s.ksb[i], { s with cursor := i.succ })

/-- The emit step (R73) up to handing over its byte: refill first when `CURSOR = 16`. -/
def nextByte (s : State) : Byte × State :=
  if h : s.cursor.val < 16 then byteAt ⟨s.cursor.val, h⟩ s else byteAt 0 (refill s)

/-- `EmitStep()` (R73): the byte goes to the output channel (R57). -/
def emitStep (s : State) : State :=
  let r := nextByte s
  record [.out r.1] r.2

/-- `repeat n times: EmitStep()` (R16, R70). -/
def emitMany : Nat → State → State
  | 0, s => s
  | n + 1, s => emitMany n (emitStep s)

/-! Completing a command. -/

/-- Enters RESPOND (R61): writes `LAST_CODE` and `ERR_STICKY` and puts the response word on offer. Log 12. -/
def offerResponse (code : Code) (count : Nat) (s : State) : State :=
  { recordCode code s with phase := .respond (responseWord code s.keyValid count) }

/-- The host takes the response word and the block returns to IDLE (R61). -/
def sendResponse (w : RespWord) (s : State) : State :=
  record [.resp w] { s with phase := .idle }

/-- Ends a command with `Respond(code, count)` (R16, R54) and the `LAST_CODE` write (R27). -/
def complete (code : Code) (count : Nat) (s : State) : State :=
  sendResponse (responseWord code s.keyValid count) (recordCode code s)

/-- The two errors of the block (R82). -/
inductive Error where
  | uninitializedState
  | illegalCommand
  deriving DecidableEq, Repr

/-- The code an error is reported with (R82). -/
def Error.code : Error → Code
  | .uninitializedState => .uninitializedState
  | .illegalCommand => .illegalCommand

/-- `raise X()` (R83), the block's one way of taking an error: only `LAST_CODE` and `ERR_STICKY` are written, and
the command completes with COUNT 0. There is no trap entry, so there is no return from one (R87). -/
def raiseError (e : Error) (s : State) : State := complete e.code 0 s

/-- `raise X()` at the port level (R61): the same, with the response word still on offer. -/
def offerError (e : Error) (s : State) : State := offerResponse e.code 0 s

/-! Reset. -/

/-- Reset at any time (R94, R95): every state element goes to its reset value whatever the phase; a command in progress
is abandoned; what the host offers stays offered and what has moved stays moved. Log 14. -/
def resetBlock (s : State) : State :=
  { State.reset with cmdIn := s.cmdIn, seedIn := s.seedIn, trace := s.trace ++ [.reset] }

end Sys2Proof.Machine
end

