-- ==== Sys2Proof/Machine/Read.lean ====
section
/-! DEFINITION. READ (41_read R70). -/

namespace Sys2Proof.Machine

/-- A READ of `n` bytes in EMIT, with `REMAIN` bytes still to produce: it emits them and responds OK with COUNT `n` (R70, R61). -/
def emitRemaining (n : Nat) (s : State) : State :=
  complete .ok n { emitMany s.remain s with remain := 0 }

/-- READ(n) (R70): UninitializedState when `KEY_VALID = 0`, for every `n` (R84); else `n` emit steps and the response. -/
def execRead (n : Nat) (s : State) : Host.Outcome State Fault Refusal :=
  if s.keyValid then .next (emitRemaining n { s with remain := n })
  else .next (raiseError .uninitializedState s)

end Sys2Proof.Machine
end

