-- ==== Sys2Proof/Machine/Seed.lean ====
section
/-! DEFINITION. SEED (40_seed R65). -/

namespace Sys2Proof.Machine

/-- A SEED word of `n` bytes begins: `REMAIN <- LEN` (R61), and a new message on the hash kernel port. -/
def startSeed (n : Nat) (s : State) : State :=
  { s with remain := n, hashMsg := [] }

/-- The message of the hash request that a SEED in ABSORB now makes: its whole seed, once the channel offers the `REMAIN`
bytes it still has to take (R59, R65); none while there are fewer. -/
def seedMessage (s : State) : Option (List Byte) :=
  let s' := takeSeed s.remain s
  if s'.remain = 0 then some s'.hashMsg else none

/-- A SEED in ABSORB, with `REMAIN` bytes to take: it takes them, hashes the whole seed, writes the state and responds OK (R65,
R68); when fewer bytes are offered it takes those and waits in ABSORB for the rest (R61, R98). Log 10. -/
def absorbSeed (s : State) : State :=
  let s' := takeSeed s.remain s
  match seedMessage s with
  | some m => complete .ok 0 (loadSeed m s')
  | none => { s' with phase := .absorb }

/-- SEED(n) (R65). -/
def execSeed (n : Nat) (s : State) : Host.Outcome State Fault Refusal :=
  .next (absorbSeed (startSeed n s))

end Sys2Proof.Machine
end

