-- ==== Sys2Proof/Machine/Dispatch.lean ====
section
/-! DEFINITION. One arm per command (30_encoding R50). -/

namespace Sys2Proof.Machine

def exec (i : Instr) (s : State) : Host.Outcome State Fault Refusal :=
  match i with
  | .seed n => Sys2Proof.Machine.execSeed n s
  | .read n => Sys2Proof.Machine.execRead n s

end Sys2Proof.Machine
end

