-- ==== Sys2Proof/Machine/Pending.lean ====
section
/-! DEFINITION. Finishing a command that is in progress (30_encoding R61). -/

namespace Sys2Proof.Machine

/-- The host takes the byte on offer, if there is one, and `REMAIN` counts it off (R61). -/
def takeOffered : Option Byte → State → State
  | none, s => s
  | some b, s => record [.out b] { s with remain := s.remain - 1 }

/-- Carries the command in progress to its end, or to where it waits for seed bytes, with a host that takes what is
offered (R61, R98). In IDLE there is none. Log 11. -/
def finishCommand (s : State) : State :=
  match s.phase with
  | .idle => s
  | .absorb => absorbSeed s
  | .emit n offered => emitRemaining n (takeOffered offered s)
  | .respond w => sendResponse w s

end Sys2Proof.Machine
end

