-- ==== Sys2Proof/Machine/Step.lean ====
section
/-! DEFINITION. One step of the machine at the transaction level: one command (00_scope R8; 20_memory R44). -/

namespace Sys2Proof.Machine

/-- In IDLE the block accepts the next command word, if one is offered, decodes it and executes it; an illegal word
raises IllegalCommand (R85), which is decided before any other error (R86). With no word offered it stays as it is (log 9).
Outside IDLE the command port accepts nothing (R61): the step carries the command in progress on (log 11). -/
def step (s : State) : Host.Outcome State Fault Refusal :=
  match s.phase with
  | .idle =>
    match acceptCommand s with
    | none => .next s
    | some (w, s') =>
      match decode w with
      | .ok i => exec i s'
      | .error _ => .next (raiseError .illegalCommand s')
  | _ => .next (finishCommand s)

/-- `s` with a command word offered first on the command port of an idle block, with no message on the hash kernel port. Log 15. -/
def State.withFetchWord (s : State) (nbits w : Nat) : State :=
  { s with phase := .idle, hashMsg := [], cmdIn := tableWord nbits w :: s.cmdIn }

end Sys2Proof.Machine
end

