-- ==== Sys2Proof/Machine/Asm.lean ====
section
/-! DEFINITION. Assembler lines and the pseudo-instruction READ of any length (30_encoding R63, R64), and how an
assembled program is offered at the ports. -/

namespace Sys2Proof.Machine

/-- One line of a command stream (R63). -/
inductive AsmLine where
  /-- `SEED "<text>"`. -/
  | seedText (text : List Char)
  /-- `SEED x"<hex>"`. -/
  | seedHex (bytes : List Byte)
  /-- `READ <n>`, of any length (R64). -/
  | read (n : Nat)
  /-- `.cmd <word>`. -/
  | cmd (word : CmdWord)
  deriving DecidableEq, Repr

/-- What the host offers for a line: command words on the command port and seed bytes on the seed data channel. -/
structure HostItems where
  words : List CmdWord
  bytes : List Byte
  deriving DecidableEq, Repr

/-- The greatest length a command word encodes, 2^56 - 1 (R51). -/
def maxLen : Nat := 2 ^ Config.lenBits - 1

/-- The READ commands that `READ <n>` stands for (R64): itself when it is encodable, else `q` times the greatest
length and then the rest, if any. -/
def expandRead (n : Nat) : List Nat :=
  if n ≤ maxLen then [n]
  else
    let r := n - n / maxLen * maxLen
    List.replicate (n / maxLen) maxLen ++ (if 0 < r then [r] else [])

/-- The command word and the seed bytes of a SEED line, if the seed is encodable (R51, R63). -/
def assembleSeed (m : List Byte) : Option HostItems :=
  if m.length ≤ maxLen then some ⟨[encode (.seed m.length)], m⟩ else none

/-- What a line stands for (R63, R64). A text that is not ASCII, or a seed that is too long, stands for nothing. Log 16. -/
def AsmLine.assemble : AsmLine → Option HostItems
  | .seedText cs =>
    if cs.all (·.toNat < 128) then assembleSeed (cs.map fun c => BitVec.ofNat 8 c.toNat) else none
  | .seedHex bs => assembleSeed bs
  | .read n => some ⟨(expandRead n).map fun k => encode (.read k), []⟩
  | .cmd w => some ⟨[w], []⟩

/-- What a program stands for: its lines in order (R63). -/
def assemble : List AsmLine → Option HostItems
  | [] => some ⟨[], []⟩
  | l :: ls =>
    match l.assemble, assemble ls with
    | some a, some b => some ⟨a.words ++ b.words, a.bytes ++ b.bytes⟩
    | _, _ => none

/-- The host offers a program at the ports. Log 15. -/
def offer (p : HostItems) (s : State) : State :=
  { s with cmdIn := s.cmdIn ++ p.words, seedIn := s.seedIn ++ p.bytes }

/-! The text of a line. Log 16. -/

/-- Blanks between the parts of a line. -/
def isBlank (c : Char) : Bool := c = ' ' || c = '\t'

/-- Nothing more on the line but blanks and a comment, which `;` starts (R63). -/
def restIsEmpty (cs : List Char) : Bool :=
  match cs.dropWhile isBlank with
  | [] => true
  | c :: _ => c = ';'

/-- The value of a digit in base 16. -/
def hexDigit (c : Char) : Option Nat :=
  if '0' ≤ c ∧ c ≤ '9' then some (c.toNat - '0'.toNat)
  else if 'a' ≤ c ∧ c ≤ 'f' then some (c.toNat - 'a'.toNat + 10)
  else if 'A' ≤ c ∧ c ≤ 'F' then some (c.toNat - 'A'.toNat + 10)
  else none

/-- The digits of a number in a base up to 16, after the value read so far. -/
def digits (base acc : Nat) : List Char → Option Nat
  | [] => some acc
  | c :: cs =>
    match hexDigit c with
    | some d => if d < base then digits base (base * acc + d) cs else none
    | none => none

/-- A number in decimal, or in hexadecimal after `0x` (R63). -/
def number : List Char → Option Nat
  | [] => none
  | '0' :: 'x' :: c :: cs => digits 16 0 (c :: cs)
  | c :: cs => digits 10 0 (c :: cs)

/-- A number and nothing more on the line. -/
def numberLine (cs : List Char) : Option Nat :=
  let body := cs.dropWhile isBlank
  let word := body.takeWhile fun c => !(isBlank c || c = ';')
  if restIsEmpty (body.drop word.length) then number word else none

/-- The characters up to a closing quotation mark, and those after it. -/
def quoted : List Char → Option (List Char × List Char)
  | [] => none
  | '"' :: cs => some ([], cs)
  | c :: cs => (quoted cs).map fun p => (c :: p.1, p.2)

/-- Bytes in hexadecimal, two digits each, byte 0 first (R63). -/
def hexBytes : List Char → Option (List Byte)
  | [] => some []
  | a :: b :: cs =>
    match hexDigit a, hexDigit b, hexBytes cs with
    | some x, some y, some bs => some (BitVec.ofNat 8 (16 * x + y) :: bs)
    | _, _, _ => none
  | [_] => none

/-- The operand of a SEED line (R63). -/
def seedOperand (cs : List Char) : Option AsmLine :=
  match cs.dropWhile isBlank with
  | '"' :: t =>
    match quoted t with
    | some (text, rest) => if restIsEmpty rest then some (.seedText text) else none
    | none => none
  | 'x' :: '"' :: t =>
    match quoted t with
    | some (hex, rest) => if restIsEmpty rest then (hexBytes hex).map .seedHex else none
    | none => none
  | _ => none

/-- The operand of a `.cmd` line (R63): a word of at most 64 bits. -/
def cmdOperand (cs : List Char) : Option AsmLine :=
  match numberLine cs with
  | some n => if n < 2 ^ 64 then some (.cmd (BitVec.ofNat 64 n)) else none
  | none => none

/-- One line of text (R63): `some []` for a line that is empty or only a comment, `none` for one that is malformed. -/
def parseLine (cs : List Char) : Option (List AsmLine) :=
  let body := cs.dropWhile isBlank
  if restIsEmpty body then some []
  else
    let word := body.takeWhile fun c => !(isBlank c || c = ';' || c = '"')
    let rest := body.drop word.length
    if rest.head?.any isBlank then
      if word = ['S', 'E', 'E', 'D'] then (seedOperand rest).map ([·])
      else if word = ['R', 'E', 'A', 'D'] then (numberLine rest).map ([.read ·])
      else if word = ['.', 'c', 'm', 'd'] then (cmdOperand rest).map ([·])
      else none
    else none

/-- A program text, its lines in order (R63). -/
def parseLines : List (List Char) → Option (List AsmLine)
  | [] => some []
  | l :: ls =>
    match parseLine l, parseLines ls with
    | some a, some b => some (a ++ b)
    | _, _ => none

end Sys2Proof.Machine
end

