-- ==== Sys2Proof/Machine/Port.lean ====
section
/-! DEFINITION. The port level (30_encoding R61; 10_state R33): one item or one internal move at a time, and what the
host may do between moves. -/

namespace Sys2Proof.Machine

/-- What the agents around the block grant in one move: whether each kernel answers (R90), and whether the host takes
the byte or the response word on offer (R61). -/
structure Grant where
  hashAnswers : Bool
  cipherAnswers : Bool
  outTaken : Bool
  respTaken : Bool
  deriving DecidableEq, Repr

/-- A host that takes everything and kernels that answer at once (R98 c, R90). -/
def Grant.all : Grant := ⟨true, true, true, true⟩

/-- A SEED word was accepted in IDLE: `REMAIN <- LEN`, to ABSORB (R61). -/
def beginSeed (n : Nat) (s : State) : State :=
  { startSeed n s with phase := .absorb }

/-- A READ word was accepted in IDLE: to RESPOND with code 1 when `KEY_VALID = 0`, else `REMAIN <- LEN`, to EMIT (R61). -/
def beginRead (n : Nat) (s : State) : State :=
  if s.keyValid then { s with remain := n, phase := .emit n none } else offerError .uninitializedState s

/-- IDLE (R61): accept one command word, if one is offered. -/
def idleMove (s : State) : State :=
  match acceptCommand s with
  | none => s
  | some (w, s') =>
    match decode w with
    | .ok (.seed n) => beginSeed n s'
    | .ok (.read n) => beginRead n s'
    | .error _ => offerError .illegalCommand s'

/-- ABSORB (R61): take one seed byte while `REMAIN > 0`; at 0, one hash request, the state writes of R65 and RESPOND. -/
def absorbMove (g : Grant) (s : State) : State :=
  if s.remain = 0 then
    if g.hashAnswers then offerResponse .ok 0 (loadSeed s.hashMsg s) else s
  else
    match s.seedIn with
    | [] => s
    | _ :: _ => takeSeed 1 s

/-- EMIT (R61): with no byte on offer, one emit step while `REMAIN > 0` (its refill waits for the cipher kernel), else
RESPOND; with a byte on offer, the host takes it or the block waits. Log 21. -/
def emitMove (g : Grant) (n : Nat) (offered : Option Byte) (s : State) : State :=
  match offered with
  | some b => if g.outTaken then { takeOffered (some b) s with phase := .emit n none } else s
  | none =>
    if s.remain = 0 then offerResponse .ok n s
    else if s.cursor = 16 ∧ g.cipherAnswers = false then s
    else let (b, s') := nextByte s; { s' with phase := .emit n (some b) }

/-- One move of the block at the port level (R61). -/
def portStep (g : Grant) (s : State) : State :=
  match s.phase with
  | .idle => idleMove s
  | .absorb => absorbMove g s
  | .emit n offered => emitMove g n offered s
  | .respond w => if g.respTaken then sendResponse w s else s

/-- `k` moves with everything granted. -/
def portRun : Nat → State → State
  | 0, s => s
  | k + 1, s => portRun k (portStep .all s)

/-- What can happen at the ports: a move of the block, or an act of the host (R61, R95). -/
inductive PortInput where
  | move (g : Grant)
  | offerCommand (w : CmdWord)
  | offerSeedByte (b : Byte)
  | reset
  deriving DecidableEq, Repr

/-- The effect of one port input. An offered item cannot be withdrawn (R61). -/
def portInput : PortInput → State → State
  | .move g, s => portStep g s
  | .offerCommand w, s => { s with cmdIn := s.cmdIn ++ [w] }
  | .offerSeedByte b, s => { s with seedIn := s.seedIn ++ [b] }
  | .reset, s => resetBlock s

/-- A sequence of port inputs. -/
def portInputs (xs : List PortInput) (s : State) : State := xs.foldl (fun s x => portInput x s) s

end Sys2Proof.Machine
end

