-- ==== Sys2Proof/Machine/HashPort.lean ====
section
/-! DEFINITION. What moves on the hash kernel port in a step and in a port-level move (30_encoding R59): the exchange, as a
function of the state before it. No state keeps it (10_state R25). -/

namespace Sys2Proof.Machine

/-- The exchange of a SEED in ABSORB that takes what it still has to take, if it can (R59, R65). -/
def absorbHash (s : State) : Option HashExchange := (seedMessage s).map hashExchange

/-- The exchange of a command executed from a state: one for a SEED that completes, none for a READ (R59, R80). -/
def commandHash (i : Instr) (s : State) : Option HashExchange :=
  match i with
  | .seed n => absorbHash (startSeed n s)
  | .read _ => none

/-- The exchange of a step (R59): that of the command it accepts, or of the SEED it carries on; none for an illegal word. -/
def stepHash (s : State) : Option HashExchange :=
  match s.phase with
  | .idle =>
    match acceptCommand s with
    | none => none
    | some (w, s') =>
      match decode w with
      | .ok i => commandHash i s'
      | .error _ => none
  | .absorb => absorbHash s
  | .emit _ _ => none
  | .respond _ => none

/-- The exchange of a port-level move: that of ABSORB with all bytes taken, when the hash kernel answers (R61, R90). -/
def portHash (g : Grant) (s : State) : Option HashExchange :=
  if s.phase = .absorb ∧ s.remain = 0 ∧ g.hashAnswers = true then some (hashExchange s.hashMsg) else none

/-- The exchanges of `k` moves with everything granted, in order. -/
def portRunHashes : Nat → State → List HashExchange
  | 0, _ => []
  | k + 1, s => (portHash .all s).toList ++ portRunHashes k (portStep .all s)

end Sys2Proof.Machine
end

