-- ==== Sys2Proof/Machine/Instances.lean ====
section
/-! DEFINITION. Several blocks beside each other (60_exceptions R91). -/

namespace Sys2Proof.Machine

/-- Several KSG blocks, each with all of its own state (R91). Their positions in the list are the model's way to
name them: the blocks have no identifiers. Log 19. -/
abbrev Instances := List State

/-- One step of the block at position `k`; the others do nothing, since no signal joins them (R91). -/
def stepInstance (k : Nat) (blocks : Instances) : Host.Outcome Instances Fault Refusal :=
  match blocks[k]? with
  | none => .next blocks
  | some s =>
    match step s with
    | .next s' => .next (blocks.set k s')
    | .fault r => .fault r
    | .refused r => .refused r

end Sys2Proof.Machine
end

