-- ==== Sys2Proof/Safety.lean ====
section
/-! DEFINITION. The terms claims are stated in: what moved on each port, what the host observes (00_scope R17), the
keystream (41_read R77), runs of several commands, and the invariants of the block. -/

namespace Sys2Proof.Machine

/-! What moved on each port, in order. -/

/-- The bytes on the output channel (R57). -/
def outBytes (es : List Event) : List Byte := es.filterMap fun
  | .out b => some b
  | _ => none

/-- The words on the response channel (R54). -/
def responses (es : List Event) : List RespWord := es.filterMap fun
  | .resp w => some w
  | _ => none

/-- The words accepted on the command port (R61). -/
def commands (es : List Event) : List CmdWord := es.filterMap fun
  | .cmd w => some w
  | _ => none

/-- How many bytes were taken from the seed data channel (R56). -/
def seedsTaken (es : List Event) : Nat := (es.filter fun
  | .seed => true
  | _ => false).length

/-- How many hash requests were made (R59). -/
def hashRequests (es : List Event) : Nat := (es.filter fun
  | .hash => true
  | _ => false).length

/-- The key and block vectors of the cipher requests (R60). -/
def cipherRequests (es : List Event) : List (BitVec 256 × BitVec 128) := es.filterMap fun
  | .cipher k b _ => some (k, b)
  | _ => none

/-- What the host observes (R17). -/
structure Observation where
  out : List Byte
  resp : List RespWord
  status : StatusWord
  deriving DecidableEq, Repr

/-- The host's view of a state (R17). -/
def State.observe (s : State) : Observation := ⟨outBytes s.trace, responses s.trace, s.status⟩

/-! The fields of a response word (R54). -/

/-- `CODE`, bits 3:0. -/
def respCode (w : RespWord) : BitVec 4 := w.extractLsb' 0 4

/-- `SEEDED`, bit 4. -/
def respSeeded (w : RespWord) : BitVec 1 := w.extractLsb' 4 1

/-- Reserved bits 7:5. -/
def respReserved (w : RespWord) : BitVec 3 := w.extractLsb' 5 3

/-- `COUNT`, bits 63:8. -/
def respCount (w : RespWord) : Nat := (w.extractLsb' 8 56).toNat

/-! The keystream. -/

/-- `B(k) = E(KEY, LE16(k))` (41_read). -/
def keyBlock (key : Key) (k : Nat) : Block := Config.cipherKernel key (LE16 k)

/-- Byte `j` of the keystream of a key (R77). -/
def keystreamByte (key : Key) (j : Nat) : Byte :=
  (keyBlock key (j / 16 + 1))[j % 16]'(Nat.mod_lt _ (by decide))

/-- The first `t` bytes of the keystream of a key (R2, R77). -/
def keystream (key : Key) (t : Nat) : List Byte := (List.range t).map (keystreamByte key)

/-- How many refills a READ of `n` bytes from cursor `c` makes (R80): 0 if `n ≤ 16 - c`, else `ceil((n - (16 - c)) / 16)`. -/
def refillCount (c n : Nat) : Nat := if n ≤ 16 - c then 0 else (n - (16 - c) + 15) / 16

/-- Byte `j` of what a READ from state `s` emits: first the rest of `KSB`, then the blocks of the following counter values. -/
def readByte (s : State) (j : Nat) : Byte :=
  if h : s.cursor.val + j < 16 then s.ksb[s.cursor.val + j]
  else
    let i := s.cursor.val + j - 16
    (keyBlock s.key (Block.val s.ctr + i / 16 + 1))[i % 16]'(Nat.mod_lt _ (by decide))

/-! Several READs one after another. -/

/-- Executes READs of the given lengths in order (R44), stopping at the first that gives no next state. -/
def runReads : List Nat → State → Host.Outcome State Fault Refusal
  | [], s => .next s
  | n :: ns, s =>
    match exec (.read n) s with
    | .next s' => runReads ns s'
    | .fault r => .fault r
    | .refused r => .refused r

/-! What the ports say of the current stream. -/

/-- What has moved since the last completed SEED or reset: the number of refills, the bytes emitted. -/
structure StreamView where
  refills : Nat
  out : List Byte
  deriving DecidableEq, Repr

/-- One more event. -/
def StreamView.add (v : StreamView) : Event → StreamView
  | .hash => ⟨0, []⟩
  | .cipher _ _ _ => { v with refills := v.refills + 1 }
  | .out b => { v with out := v.out ++ [b] }
  | .reset => ⟨0, []⟩
  | .cmd _ | .seed | .resp _ => v

/-- The view of a whole trace. -/
def streamView (es : List Event) : StreamView := es.foldl StreamView.add ⟨0, []⟩

/-! The seed of the last completed SEED since reset, if any. No state holds it (R25): who watches the hash kernel port knows it. -/

/-- After a step. -/
def seedAfterStep (last : Option (List Byte)) (s : State) : Option (List Byte) :=
  ((stepHash s).map (·.message)).or last

/-- After a port input. -/
def seedAfterInput (last : Option (List Byte)) (x : PortInput) (s : State) : Option (List Byte) :=
  match x with
  | .move g => ((portHash g s).map (·.message)).or last
  | .offerCommand _ | .offerSeedByte _ => last
  | .reset => none

/-- What has moved since the last reset. -/
def sinceReset (es : List Event) : List Event := es.foldl (fun acc e => if e = .reset then [] else acc ++ [e]) []

/-- The byte on offer in a phase. -/
def Phase.offeredBytes : Phase → List Byte
  | .emit _ (some b) => [b]
  | _ => []

/-- The response word on offer in a phase. -/
def Phase.offeredResponse : Phase → List RespWord
  | .respond w => [w]
  | _ => []

/-- The bytes produced since the last SEED: those emitted and the one on offer. -/
def State.produced (s : State) : List Byte := (streamView s.trace).out ++ s.phase.offeredBytes

/-! Invariants. -/

/-- The invariants of R24, of a seeded block in any phase, where `last` is the seed of the last SEED: (b) `val(CTR)` is the
number of refills since that SEED, modulo 2^128; (c) if `CURSOR < 16` there was a refill and `KSB = E(KEY, CTR)`; (d) `KEY` is derived from `last`.
(a), `CURSOR` in 0..16, is in its type. -/
def RegistersInv (last : Option (List Byte)) (s : State) : Prop :=
  s.keyValid = true →
    Block.val s.ctr = (streamView s.trace).refills % 2 ^ 128 ∧
    (s.cursor.val < 16 → 1 ≤ (streamView s.trace).refills ∧ s.ksb = Config.cipherKernel s.key s.ctr) ∧
    ∃ m, last = some m ∧ s.key = deriveKey m

/-- The keystream formula of R77, with `last` the seed of the last SEED and `t` the number of bytes produced since that SEED:
`KEY` is derived from `last`, the bytes are the first `t` of the keystream of `KEY`, and `CURSOR`, `CTR`, `KSB` are what R77 says. -/
def KeystreamInv (last : Option (List Byte)) (s : State) : Prop :=
  s.keyValid = true →
    (∃ m, last = some m ∧ s.key = deriveKey m) ∧
    s.produced = keystream s.key s.produced.length ∧
    s.ctr = LE16 ((s.produced.length + 15) / 16) ∧
    (s.produced.length = 0 → s.cursor = 16) ∧
    (0 < s.produced.length →
      s.cursor.val = s.produced.length - 16 * ((s.produced.length + 15) / 16 - 1) ∧
      s.ksb = keyBlock s.key ((s.produced.length + 15) / 16))

/-- One response per command since the last reset, the command in progress still owing its own (R54). -/
def ResponseInv (s : State) : Prop :=
  (commands (sinceReset s.trace)).length =
    (responses (sinceReset s.trace)).length + (if s.phase = .idle then 0 else 1)

/-- The STATUS fields are what the ports say (R19, R27, R28): `KEY_VALID` is 1 exactly when a SEED has completed since the last
reset; `LAST_CODE` is the code of the last response since then, 0 if there is none; `ERR_STICKY` is 1 exactly when some
response since then carries a code other than 0. The response word on offer counts as sent, since RESPOND writes both before it
offers the word (R61, log 12). -/
def StatusInv (s : State) : Prop :=
  let rs := responses (sinceReset s.trace) ++ s.phase.offeredResponse
  (s.keyValid = true ↔ 0 < hashRequests (sinceReset s.trace)) ∧
  s.lastCode.bits = ((rs.getLast?).map respCode).getD 0#4 ∧
  (s.errSticky = true ↔ ∃ w ∈ rs, respCode w ≠ 0#4)

/-- Lengths fit their fields: `REMAIN` its 56 bits (R33), and a READ's `LEN` the `COUNT` field of its response (R54); `REMAIN` is at
most that `LEN`, and a byte on offer is still counted in it (R61). -/
def LengthInv (s : State) : Prop :=
  s.remain < 2 ^ Config.lenBits ∧
  ∀ n o, s.phase = .emit n o →
    n < 2 ^ Config.lenBits ∧ s.remain ≤ n ∧ (o ≠ none → 0 < s.remain)

/-- No seed is held but by the SEED that is taking it (R25): outside ABSORB no message is on the hash kernel port. -/
def NoSeedInv (s : State) : Prop := s.phase ≠ .absorb → s.hashMsg = []

/-- Two states that differ at most in what no rule can read (R34, R22, R69): in `KEY`, `CTR`, `CURSOR` of a block never seeded
(and not emitting), in `KSB` when also `CURSOR = 16` makes it unreadable, and in `REMAIN` when no phase uses it. -/
structure Indistinguishable (s t : State) : Prop where
  keyValid : s.keyValid = t.keyValid
  lastCode : s.lastCode = t.lastCode
  errSticky : s.errSticky = t.errSticky
  phase : s.phase = t.phase
  cmdIn : s.cmdIn = t.cmdIn
  seedIn : s.seedIn = t.seedIn
  hashMsg : s.hashMsg = t.hashMsg
  trace : s.trace = t.trace
  remain : (∀ w, s.phase ≠ .respond w) → s.phase ≠ .idle → s.remain = t.remain
  generator : s.keyValid = true ∨ (∃ n o, s.phase = .emit n o) →
    s.key = t.key ∧ s.ctr = t.ctr ∧ s.cursor = t.cursor ∧ (s.cursor ≠ 16 → s.ksb = t.ksb)

end Sys2Proof.Machine
end

