-- ==== Sys2Proof/Certificates/Slice0/Obligations.lean ====
section
/-! DEFINITION. The statements about the model, for the provers. -/

open Sys2Proof Sys2Proof.Machine

/-! Encoding (30_encoding). -/

/-- The words of vectors V1 to V9a decode to what the spec says of them. -/
def Obligations.DecodeOfListedWords : Prop :=
  decode 0x0000000000000001#64 = .ok (.seed 0) ∧
  decode 0x0000000000000301#64 = .ok (.seed 3) ∧
  decode 0x0000000000000002#64 = .ok (.read 0) ∧
  decode 0x0000000000001002#64 = .ok (.read 16) ∧
  decode 0xFFFFFFFFFFFFFF02#64 = .ok (.read (2 ^ 56 - 1)) ∧
  decode 0x0000000000000000#64 = .error (.noSuchOpcode 0x0#4) ∧
  decode 0x0000000000000003#64 = .error (.noSuchOpcode 0x3#4) ∧
  decode 0x000000000000000F#64 = .error (.noSuchOpcode 0xF#4) ∧
  decode 0x0000000000000012#64 = .error (.reservedNotZero 0x1#4) ∧
  decode 0x1000000000000011#64 = .error (.reservedNotZero 0x1#4)

/-- Decoding the encoding of a well-formed command gives it back, for every length. -/
def Obligations.DecodeOfEncodeIsIdentity : Prop :=
  ∀ i : Instr, i.WellFormed → decode (encode i) = .ok i

/-- A word that decodes is the encoding of what it decodes to, and that is well formed. -/
def Obligations.EncodeOfDecodeIsIdentity : Prop :=
  ∀ (w : CmdWord) (i : Instr), decode w = .ok i → i.WellFormed ∧ encode i = w

/-- R50, R53: the words that are SEED, those that are READ, by mask, value and length field; every other word, and only
those, is illegal. -/
def Obligations.DecodeVerdictOfEveryWord : Prop :=
  ∀ w : CmdWord,
    (∀ n, decode w = .ok (.seed n) ↔ w &&& 0xFF#64 = 0x01#64 ∧ n = (w >>> 8).toNat) ∧
    (∀ n, decode w = .ok (.read n) ↔ w &&& 0xFF#64 = 0x02#64 ∧ n = (w >>> 8).toNat) ∧
    ((∃ e, decode w = .error e) ↔
      (w.extractLsb' 0 4 ≠ 0x1#4 ∧ w.extractLsb' 0 4 ≠ 0x2#4) ∨ w.extractLsb' 4 4 ≠ 0#4)

/-! The step (20_memory section 4, 30_encoding section 5). -/

/-- A word that decodes and is first on the command port of an idle block is accepted and its command executed. -/
def Obligations.StepRunsTheDecodedCommand : Prop :=
  ∀ (s : State) (w : CmdWord) (ws : List CmdWord) (i : Instr),
    s.phase = .idle → s.cmdIn = w :: ws → decode w = .ok i →
    step s = exec i { s with cmdIn := ws, trace := s.trace ++ [.cmd w] }

/-- An idle block with no command on offer stays as it is (log 9), also at the port level. -/
def Obligations.IdleBlockWaitsForACommand : Prop :=
  ∀ (s : State) (g : Grant), s.phase = .idle → s.cmdIn = [] → step s = .next s ∧ portStep g s = s

/-- R85: an illegal word raises IllegalCommand whether or not the block is seeded: only `LAST_CODE` and `ERR_STICKY` change, the
response carries code 2 and COUNT 0, and no seed byte is taken: those on offer are taken by the next SEED. -/
def Obligations.IllegalWordRaisesIllegalCommand : Prop :=
  ∀ (s : State) (w : CmdWord) (ws : List CmdWord),
    s.phase = .idle → s.cmdIn = w :: ws →
    (w.extractLsb' 0 4 ≠ 0x1#4 ∧ w.extractLsb' 0 4 ≠ 0x2#4) ∨ w.extractLsb' 4 4 ≠ 0#4 →
    ∃ t, step s = .next t ∧
      t = { s with
        cmdIn := ws, lastCode := .illegalCommand, errSticky := true,
        trace := s.trace ++ [.cmd w, .resp (if s.keyValid then 0x12#64 else 0x02#64)] } ∧
      ∀ n ≤ s.seedIn.length, ∃ u, exec (.seed n) t = .next u ∧ u.key = deriveKey (s.seedIn.take n)

/-- What R54 says: every command, legal or not, completes with exactly one response word after all of its output bytes, and the word's
fields are as the table says. A SEED short of bytes waits for them (R61, R98) and then completes with its one response word; that its
step ends in ABSORB with the bytes taken on the hash kernel port (log 10), and that one later step from there completes it (log 11),
is the model's choice. -/
def Obligations.EveryCommandEndsWithItsResponse : Prop :=
  ∀ (s : State) (w : CmdWord) (ws : List CmdWord),
    s.phase = .idle → s.cmdIn = w :: ws →
    ∃ t, step s = .next t ∧
      ((∃ n, decode w = .ok (.seed n) ∧ s.seedIn.length < n ∧ t.phase = .absorb ∧ t.hashMsg = s.seedIn ∧
        responses t.trace = responses s.trace ∧
        ∀ more : List Byte, n ≤ s.seedIn.length + more.length → ∃ u es r,
          step { t with seedIn := more } = .next u ∧ u.phase = .idle ∧ u.trace = t.trace ++ es ++ [.resp r] ∧
          responses es = [] ∧ outBytes es = [] ∧
          respCode r = 0#4 ∧ respSeeded r = 1#1 ∧ respReserved r = 0#3 ∧ respCount r = 0) ∨
       (t.phase = .idle ∧ ∃ mid r,
        t.trace = s.trace ++ .cmd w :: mid ++ [.resp r] ∧ responses mid = [] ∧ commands mid = [] ∧
        respCode r = t.lastCode.bits ∧ respSeeded r = BitVec.ofBool t.keyValid ∧ respReserved r = 0#3 ∧
        respCount r = (outBytes mid).length ∧
        respCount r = (match decode w with
          | .ok (.read n) => if s.keyValid then n else 0
          | _ => 0)))

/-! SEED (40_seed). -/

/-- R65, R66: with its seed bytes on offer SEED completes; this is its whole effect, so everything not named is unchanged; and its one
hash exchange carries the whole seed and its digest. -/
def Obligations.SeedCompletes : Prop :=
  ∀ (n : Nat) (s : State), n ≤ s.seedIn.length →
    exec (.seed n) s = .next { s with
      keyValid := true
      key := perturb (Config.hashKernel (s.seedIn.take n))
      ctr := zeroBlock
      cursor := 16
      lastCode := .ok
      phase := .idle
      remain := 0
      seedIn := s.seedIn.drop n
      hashMsg := []
      trace := s.trace ++ List.replicate n .seed ++ [.hash, .resp 0x10#64] } ∧
    commandHash (.seed n) s = some ⟨s.seedIn.take n, wireKey (Config.hashKernel (s.seedIn.take n))⟩

/-- A SEED short of bytes takes those on offer and waits in ABSORB, with no hash exchange; nothing happens until more are offered; and when
they are, it ends exactly as if all had been there at once, with the same hash exchange (log 10, log 11). -/
def Obligations.SeedDeliveredInPiecesIsTheSameSeed : Prop :=
  ∀ (n : Nat) (s : State) (more : List Byte), s.seedIn.length < n →
    let t : State := { s with
      phase := .absorb, remain := n - s.seedIn.length, seedIn := [], hashMsg := s.seedIn,
      trace := s.trace ++ List.replicate s.seedIn.length .seed }
    exec (.seed n) s = .next t ∧ commandHash (.seed n) s = none ∧ step t = .next t ∧ stepHash t = none ∧
    step { t with seedIn := more } = exec (.seed n) { s with seedIn := s.seedIn ++ more } ∧
    stepHash { t with seedIn := more } = commandHash (.seed n) { s with seedIn := s.seedIn ++ more }

/-- R25: a SEED keeps neither its seed nor its digest, but only the key: of a seed of given length, the whole state after it, record of the
ports included, depends on the derived key alone. -/
def Obligations.SeedLeavesOnlyItsKey : Prop :=
  ∀ (n : Nat) (s : State) (rest : List Byte), ∃ f : Key → State, ∀ m : List Byte, m.length = n →
    exec (.seed n) { s with seedIn := m ++ rest } = .next (f (deriveKey m))

/-- No seed byte is held but by the SEED that is still taking them: in every state that a step or a port input leads to, a message is on
the hash kernel port, where the model puts the bytes taken (log 10), only in ABSORB. -/
def Obligations.NoSeedIsHeldOutsideAbsorb : Prop :=
  (∀ s t : State, NoSeedInv s → step s = .next t → NoSeedInv t) ∧
  ∀ (s : State) (x : PortInput), NoSeedInv s → NoSeedInv (portInput x s)

/-- SEED leaves `KSB`, `ERR_STICKY` and the offered commands alone and moves nothing on the output and cipher ports,
whether it completes or, short of seed bytes, waits in ABSORB (R61, R98). That one step then ends in ABSORB with the bytes
taken so far on the hash kernel port is the model's choice (log 10); until it completes, the other registers and the responses stay too. -/
def Obligations.SeedFrame : Prop :=
  ∀ (n : Nat) (s t : State), exec (.seed n) s = .next t →
    t.ksb = s.ksb ∧ t.errSticky = s.errSticky ∧ t.cmdIn = s.cmdIn ∧
    outBytes t.trace = outBytes s.trace ∧ commands t.trace = commands s.trace ∧
    cipherRequests t.trace = cipherRequests s.trace ∧ (∃ es, t.trace = s.trace ++ es) ∧
    (t.phase = .idle ∨
      t.phase = .absorb ∧ t.hashMsg = s.seedIn ∧ t.keyValid = s.keyValid ∧ t.key = s.key ∧ t.ctr = s.ctr ∧ t.cursor = s.cursor ∧
      t.lastCode = s.lastCode ∧ responses t.trace = responses s.trace ∧ hashRequests t.trace = hashRequests s.trace)

/-- R68: every SEED command word, given its bytes, completes with `CODE = 0` and `SEEDED = 1`, and leaves the block ready to READ. -/
def Obligations.SeedNeverFails : Prop :=
  ∀ (s : State) (w : CmdWord) (ws : List CmdWord) (n : Nat),
    s.phase = .idle → s.cmdIn = w :: ws → decode w = .ok (.seed n) → n ≤ s.seedIn.length →
    ∃ t r, step s = .next t ∧ t.phase = .idle ∧ responses t.trace = responses s.trace ++ [r] ∧
      respCode r = 0#4 ∧ respSeeded r = 1#1 ∧
      ∀ k, ∃ u, exec (.read k) t = .next u ∧ u.lastCode = .ok

/-- R69: after a SEED of `m`, the generator registers depend on `m` alone, and so does every byte that later READs emit, whatever the two
blocks were before; `ERR_STICKY` survives the SEED and `LAST_CODE` becomes 0. -/
def Obligations.ReseedDiscardsThePriorState : Prop :=
  ∀ (s₁ s₂ : State) (m rest₁ rest₂ : List Byte) (ns : List Nat),
    s₁.seedIn = m ++ rest₁ → s₂.seedIn = m ++ rest₂ →
    ∃ t₁ t₂ u₁ u₂ out,
      exec (.seed m.length) s₁ = .next t₁ ∧ exec (.seed m.length) s₂ = .next t₂ ∧
      t₁.keyValid = true ∧ t₂.keyValid = true ∧ t₁.key = t₂.key ∧ t₁.ctr = t₂.ctr ∧ t₁.cursor = t₂.cursor ∧
      t₁.errSticky = s₁.errSticky ∧ t₁.lastCode = .ok ∧
      runReads ns t₁ = .next u₁ ∧ runReads ns t₂ = .next u₂ ∧
      outBytes u₁.trace = outBytes s₁.trace ++ out ∧ outBytes u₂.trace = outBytes s₂.trace ++ out

/-- R67: `Perturb` increments byte `P` modulo 256, changes no other byte, and never gives back its argument. -/
def Obligations.PerturbIncrementsOneByte : Prop :=
  ∀ d : Key,
    (perturb d)[Config.perturbIndex] = d[Config.perturbIndex] + 1#8 ∧
    (∀ i : Fin 32, i ≠ Config.perturbIndex → (perturb d)[i] = d[i]) ∧
    (d[Config.perturbIndex] = 0x00#8 → (perturb d)[Config.perturbIndex] = 0x01#8) ∧
    (d[Config.perturbIndex] = 0xFF#8 → (perturb d)[Config.perturbIndex] = 0x00#8) ∧
    perturb d ≠ d

/-! Byte order and the counter (20_memory section 2, 41_read section 2). -/

/-- R36: the counter is little-endian: `val` is the sum the rule gives, and the increment adds 1 to it. -/
def Obligations.CounterIsLittleEndian : Prop :=
  ∀ ctr : Block,
    Block.val ctr = ∑ i : Fin 16, ctr[i].toNat * 256 ^ i.val ∧
    Block.val (ctrInc ctr) = (Block.val ctr + 1) % 2 ^ 128

/-- `LE16` and `val` undo each other, modulo 2^128, and byte `i` of `LE16(k)` is as defined. -/
def Obligations.LittleEndianRoundTrip : Prop :=
  (∀ (k : Nat) (i : Fin 16), (LE16 k)[i].toNat = k % 2 ^ 128 / 256 ^ i.val % 256) ∧
  (∀ k, Block.val (LE16 k) = k % 2 ^ 128) ∧ ∀ c, LE16 (Block.val c) = c

/-- R71: a byte of the counter is incremented exactly when every byte before it is 0xFF; altogether the counter goes to
`LE16(val(c) + 1)`; and the rule's three corner cases. -/
def Obligations.CounterIncrementCarries : Prop :=
  (∀ ctr : Block,
    (∀ i : Fin 16, (ctrInc ctr)[i] = if ∀ j : Fin 16, j < i → ctr[j] = 0xFF#8 then ctr[i] + 1#8 else ctr[i]) ∧
    ctrInc ctr = LE16 (Block.val ctr + 1)) ∧
  ctrInc #v[0xFF, 0, 0, 0, 0, 0, 0, 0, 0, 0, 0, 0, 0, 0, 0, 0] = #v[0, 1, 0, 0, 0, 0, 0, 0, 0, 0, 0, 0, 0, 0, 0, 0] ∧
  ctrInc (Vector.replicate 16 0xFF#8) = zeroBlock ∧
  ctrInc #v[0, 0xFF, 0, 0, 0, 0, 0, 0, 0, 0, 0, 0, 0, 0, 0, 0] = #v[1, 0xFF, 0, 0, 0, 0, 0, 0, 0, 0, 0, 0, 0, 0, 0, 0]

/-- R79: the counter wraps modulo 2^128 with no error: `k` increments from `0^16` give `LE16(k)`; blocks recur after 2^128; the first 2^128
counter values after a SEED are distinct; a refill of the all-ones counter encrypts `0^16`; and a seeded READ never fails. -/
def Obligations.CounterWrapsWithoutError : Prop :=
  (∀ k, ctrInc^[k] zeroBlock = LE16 k) ∧
  (∀ key k, keyBlock key (k + 2 ^ 128) = keyBlock key k) ∧
  (∀ j k, j < 2 ^ 128 → k < 2 ^ 128 → LE16 (j + 1) = LE16 (k + 1) → j = k) ∧
  (∀ s : State, s.ctr = Vector.replicate 16 0xFF#8 →
    (refill s).ctr = zeroBlock ∧ (refill s).ksb = Config.cipherKernel s.key zeroBlock) ∧
  ∀ (n : Nat) (s : State), s.keyValid = true → ∃ t, exec (.read n) s = .next t ∧ t.lastCode = .ok

/-- R41: on the kernel ports byte `i` of a key, digest or block occupies bits `[8i+7:8i]`. -/
def Obligations.PortVectorByteLayout : Prop :=
  (∀ (k : Key) (i : Fin 32), (wireKey k).extractLsb' (8 * i.val) 8 = k[i]) ∧
  ∀ (b : Block) (i : Fin 16), (wireBlock b).extractLsb' (8 * i.val) 8 = b[i]

/-! READ (41_read). -/

/-- R70: a READ of a seeded block completes, from any cursor and counter; this is its whole effect, so everything not named is
unchanged. The bytes are those of `readByte`: the rest of `KSB`, then the blocks of the following counter values. -/
def Obligations.SeededReadCompletes : Prop :=
  ∀ (n : Nat) (s : State), s.keyValid = true →
    ∃ (es : List Event) (cur : Fin 17),
      exec (.read n) s = .next { s with
        ctr := LE16 (Block.val s.ctr + refillCount s.cursor n)
        ksb := if refillCount s.cursor n = 0 then s.ksb
          else keyBlock s.key (Block.val s.ctr + refillCount s.cursor n)
        cursor := cur
        lastCode := .ok
        phase := .idle
        remain := 0
        trace := s.trace ++ es ++ [.resp (responseWord .ok true n)] } ∧
      cur.val = s.cursor.val + n - 16 * refillCount s.cursor n ∧
      outBytes es = (List.range n).map (readByte s) ∧
      ∀ e ∈ es, (∃ b, e = .out b) ∨ ∃ k b r, e = .cipher k b r

/-- R80: a successful READ from cursor `c` issues exactly the cipher requests of the next `r` counter values, in order, and no hash request;
a READ that fails issues none. -/
def Obligations.ReadIssuesExactlyItsCipherRequests : Prop :=
  ∀ (n : Nat) (s : State), ∃ t, exec (.read n) s = .next t ∧
    hashRequests t.trace = hashRequests s.trace ∧ commandHash (.read n) s = none ∧
    (s.keyValid = true → ∃ r : Nat,
      (n ≤ 16 - s.cursor.val → r = 0) ∧
      (16 - s.cursor.val < n → r = (n - (16 - s.cursor.val) + 15) / 16) ∧
      cipherRequests t.trace = cipherRequests s.trace ++
        (List.range r).map fun k => (wireKey s.key, wireBlock (LE16 (Block.val s.ctr + (k + 1))))) ∧
    (s.keyValid = false → cipherRequests t.trace = cipherRequests s.trace)

/-- R84: a READ of a block never seeded raises UninitializedState, for every length: only `LAST_CODE` and `ERR_STICKY` change,
nothing is emitted, and the response carries code 1, SEEDED 0 and COUNT 0. -/
def Obligations.UnseededReadRaisesUninitializedState : Prop :=
  ∀ (n : Nat) (s : State), s.keyValid = false →
    exec (.read n) s = .next { s with
      lastCode := .uninitializedState, errSticky := true, phase := .idle, trace := s.trace ++ [.resp 0x1#64] }

/-- R74: a successful READ of `n` bytes emits exactly `n` and reports `COUNT = n`; it cannot partially fail: one that fails emits none. -/
def Obligations.ReadEmitsExactlyItsLength : Prop :=
  ∀ (n : Nat) (s : State), n < 2 ^ 56 → ∃ t r, exec (.read n) s = .next t ∧
    responses t.trace = responses s.trace ++ [r] ∧
    (s.keyValid = true →
      (outBytes t.trace).length = (outBytes s.trace).length + n ∧ respCode r = 0#4 ∧ respCount r = n) ∧
    (s.keyValid = false →
      outBytes t.trace = outBytes s.trace ∧ respCode r = 0x1#4 ∧ respCount r = 0)

/-- R75: a successful READ of 0 bytes emits nothing, issues no cipher request and changes no generator register, even at `CURSOR = 16`. -/
def Obligations.ReadOfZeroBytesOnlyResponds : Prop :=
  ∀ s : State, s.keyValid = true →
    exec (.read 0) s = .next { s with
      lastCode := .ok, phase := .idle, remain := 0, trace := s.trace ++ [.resp 0x10#64] }

/-- R76: a READ that consumes the last byte of a block leaves `CURSOR = 16` and that block in `KSB`, with no further cipher request; the next
refill is the first thing the next READ of at least one byte does. -/
def Obligations.RefillIsLazy : Prop :=
  ∀ (n : Nat) (s : State), s.keyValid = true → 0 < n → (s.cursor.val + n) % 16 = 0 →
    ∃ t, exec (.read n) s = .next t ∧ t.cursor = 16 ∧
      cipherRequests t.trace = cipherRequests s.trace ++
        (List.range ((s.cursor.val + n) / 16 - 1)).map
          (fun k => (wireKey s.key, wireBlock (LE16 (Block.val s.ctr + (k + 1))))) ∧
      (n ≤ 16 - s.cursor.val → t.ksb = s.ksb ∧ t.ctr = s.ctr) ∧
      (16 - s.cursor.val < n → t.ksb = Config.cipherKernel t.key t.ctr) ∧
      ∀ k, ∃ u es, exec (.read (k + 1)) t = .next u ∧
        u.trace = t.trace ++ .cipher (wireKey t.key) (wireBlock (ctrInc t.ctr))
          (wireBlock (Config.cipherKernel t.key (ctrInc t.ctr))) :: es

/-- R78: the bytes of several READs are those of one READ of their total length, and they leave the same `KEY`, `CTR`, `KSB` and `CURSOR`; only
the number of response words differs. With two lengths `a` and `b` this is the rule's sentence. -/
def Obligations.SplitReadsDeliverTheSameStream : Prop :=
  ∀ (ns : List Nat) (s : State), s.keyValid = true →
    ∃ t u, exec (.read ns.sum) s = .next t ∧ runReads ns s = .next u ∧
      outBytes u.trace = outBytes t.trace ∧
      u.key = t.key ∧ u.ctr = t.ctr ∧ u.ksb = t.ksb ∧ u.cursor = t.cursor ∧
      (responses t.trace).length = (responses s.trace).length + 1 ∧
      (responses u.trace).length = (responses s.trace).length + ns.length

/-- R77 as an invariant of every step and of everything that can happen at the ports, from every state that meets it; the seed of the
last SEED is what the hash exchanges so far say, and a byte on offer counts as emitted, since R61 performs the emit step and then
offers its byte. -/
def Obligations.KeystreamFormulaIsInvariant : Prop :=
  (∀ (last : Option (List Byte)) (s t : State), KeystreamInv last s → step s = .next t → KeystreamInv (seedAfterStep last s) t) ∧
  ∀ (last : Option (List Byte)) (s : State) (x : PortInput),
    KeystreamInv last s → KeystreamInv (seedAfterInput last x s) (portInput x s)

/-- After a SEED of `m`, READs of any lengths emit the first bytes of the keystream of `m`, from any state of the block. -/
def Obligations.SeedThenReadsEmitTheKeystream : Prop :=
  ∀ (s : State) (m rest : List Byte) (ns : List Nat), s.seedIn = m ++ rest →
    ∃ t u, exec (.seed m.length) s = .next t ∧ runReads ns t = .next u ∧
      outBytes u.trace = outBytes s.trace ++ keystream (deriveKey m) ns.sum ∧
      u.seedIn = rest ∧ u.key = deriveKey m ∧ u.ctr = LE16 ((ns.sum + 15) / 16) ∧ u.errSticky = s.errSticky

/-- Whoever issues them, READs take consecutive stretches of the one keystream in the order they are accepted: after a SEED of `m` and READs of
lengths `ns`, a READ of `n` bytes emits bytes `ns.sum` to `ns.sum + n` of it. -/
def Obligations.EachReadTakesItsStretchOfTheKeystream : Prop :=
  ∀ (s : State) (m rest : List Byte) (ns : List Nat) (n : Nat), s.seedIn = m ++ rest →
    ∃ t u v, exec (.seed m.length) s = .next t ∧ runReads ns t = .next u ∧ exec (.read n) u = .next v ∧
      outBytes v.trace = outBytes u.trace ++ (keystream (deriveKey m) (ns.sum + n)).drop ns.sum

/-- R73: the emit step refills first when `CURSOR = 16`, emits `KSB[CURSOR]` with the index in 0..15, and advances `CURSOR` by 1 into 1..16. -/
def Obligations.EmitStepEmitsAtTheCursor : Prop :=
  ∀ s : State,
    let s₁ := if s.cursor = 16 then refill s else s
    ∃ i : Fin 16, i.val = s₁.cursor.val ∧
      emitStep s = { s₁ with cursor := i.succ, trace := s₁.trace ++ [.out s₁.ksb[i]] }

/-- R72: a refill increments `CTR`, encrypts the new value into `KSB` with one cipher request and sets `CURSOR` to 0, changing nothing
else; so the first block after a SEED is `B(1)`. -/
def Obligations.RefillEncryptsTheIncrementedCounter : Prop :=
  ∀ s : State,
    refill s = { s with
      ctr := ctrInc s.ctr, ksb := Config.cipherKernel s.key (ctrInc s.ctr), cursor := 0,
      trace := s.trace ++ [.cipher (wireKey s.key) (wireBlock (ctrInc s.ctr))
        (wireBlock (Config.cipherKernel s.key (ctrInc s.ctr)))] } ∧
    ∀ m, (refill (loadSeed m s)).ctr = LE16 1 ∧ (refill (loadSeed m s)).ksb = keyBlock (deriveKey m) 1

/-! Registers and STATUS (10_state). -/

/-- R24 as an invariant of every step and of everything that can happen at the ports; the seed of the last SEED is what the hash
exchanges so far say. -/
def Obligations.GeneratorRegistersInvariant : Prop :=
  (∀ (last : Option (List Byte)) (s t : State), RegistersInv last s → step s = .next t → RegistersInv (seedAfterStep last s) t) ∧
  ∀ (last : Option (List Byte)) (s : State) (x : PortInput),
    RegistersInv last s → RegistersInv (seedAfterInput last x s) (portInput x s)

/-- The invariants hold right after reset. -/
def Obligations.InvariantsHoldAtReset : Prop :=
  KeystreamInv none State.reset ∧ RegistersInv none State.reset ∧ ResponseInv State.reset ∧ StatusInv State.reset ∧
  LengthInv State.reset ∧ NoSeedInv State.reset

/-- R26: the fields of the STATUS word, its reserved bits 0. -/
def Obligations.StatusWordFields : Prop :=
  ∀ s : State,
    s.status.extractLsb' 0 1 = BitVec.ofBool s.keyValid ∧
    s.status.extractLsb' 1 1 = BitVec.ofBool s.errSticky ∧
    s.status.extractLsb' 2 2 = 0#2 ∧
    s.status.extractLsb' 4 4 = s.lastCode.bits ∧
    s.status.extractLsb' 8 24 = 0#24

/-- What R27, R28 and R19 say of `LAST_CODE`, `ERR_STICKY` and `KEY_VALID`, as an invariant in every phase: `LAST_CODE` is the code of the last
response, 0 if there was none since reset; `ERR_STICKY` is 1 exactly when a response since reset carried another code than 0;
`KEY_VALID` is 1 exactly when a SEED made its hash request since reset. That a response word on offer already counts is the
model's reading (log 12): R61 writes the two fields before the word is offered, R27 and R28 say at the command's completion. -/
def Obligations.StatusReflectsTheResponses : Prop :=
  (∀ s t : State, StatusInv s → step s = .next t → StatusInv t) ∧
  ∀ (s : State) (x : PortInput), StatusInv s → StatusInv (portInput x s)

/-- One response per command: since the last reset, the block has sent as many response words as it has accepted command words, but for the
command in progress. -/
def Obligations.OneResponsePerCommand : Prop :=
  (∀ s t : State, ResponseInv s → step s = .next t → ResponseInv t) ∧
  ∀ (s : State) (x : PortInput), ResponseInv s → ResponseInv (portInput x s)

/-- `REMAIN`, which the model holds as a natural number (log 6), keeps within its 56 bits; a READ's length fits the COUNT field, and bounds
`REMAIN`; and a byte on offer is still counted in it. -/
def Obligations.LengthsFitTheirFields : Prop :=
  (∀ s t : State, LengthInv s → step s = .next t → LengthInv t) ∧
  ∀ (s : State) (x : PortInput), LengthInv s → LengthInv (portInput x s)

/-- `KEY` changes only by a SEED, with one hash exchange, and is then derived from its message: in every step and every move at
the ports. -/
def Obligations.KeyChangesOnlyBySeed : Prop :=
  (∀ s t : State, step s = .next t →
    (stepHash s = none ∧ t.key = s.key ∧ hashRequests t.trace = hashRequests s.trace) ∨
    ∃ m, stepHash s = some (hashExchange m) ∧ t.key = deriveKey m ∧ hashRequests t.trace = hashRequests s.trace + 1) ∧
  ∀ (g : Grant) (s : State),
    (portHash g s = none ∧ (portStep g s).key = s.key ∧ hashRequests (portStep g s).trace = hashRequests s.trace) ∨
    ∃ m, portHash g s = some (hashExchange m) ∧ (portStep g s).key = deriveKey m ∧
      hashRequests (portStep g s).trace = hashRequests s.trace + 1

/-- No command clears `KEY_VALID` or `ERR_STICKY`: only reset does. -/
def Obligations.OnlyResetClearsTheFlags : Prop :=
  (∀ s t : State, step s = .next t →
    (s.keyValid = true → t.keyValid = true) ∧ (s.errSticky = true → t.errSticky = true)) ∧
  ∀ (s : State) (x : PortInput), x ≠ .reset →
    (s.keyValid = true → (portInput x s).keyValid = true) ∧ (s.errSticky = true → (portInput x s).errSticky = true)

/-- R34: the reset values the spec gives; and what it leaves unspecified cannot be observed: a block that differs from the reset one in
`KEY`, `CTR`, `KSB`, `CURSOR` and `REMAIN` only is indistinguishable from it, indistinguishable blocks show the host the same, and every
step and every port input keeps them indistinguishable. -/
def Obligations.UnspecifiedResetValuesAreUnobservable : Prop :=
  (State.reset.keyValid = false ∧ State.reset.lastCode = .ok ∧ State.reset.errSticky = false ∧
    State.reset.phase = .idle) ∧
  (∀ (key : Key) (ctr ksb : Block) (cursor : Fin 17) (remain : Nat),
    Indistinguishable
      { State.reset with key := key, ctr := ctr, ksb := ksb, cursor := cursor, remain := remain } State.reset) ∧
  (∀ s t : State, Indistinguishable s t → s.observe = t.observe) ∧
  (∀ s t : State, Indistinguishable s t →
    ∃ s' t', step s = .next s' ∧ step t = .next t' ∧ Indistinguishable s' t') ∧
  ∀ (s t : State) (x : PortInput), Indistinguishable s t → Indistinguishable (portInput x s) (portInput x t)

/-- The record of the ports is never read: a step with a longer history does the same, with the same hash exchange (log 8). -/
def Obligations.PortHistoryIsNeverRead : Prop :=
  ∀ (s : State) (past : List Event), ∃ t, step s = .next t ∧
    step { s with trace := past ++ s.trace } = .next { t with trace := past ++ t.trace } ∧
    stepHash { s with trace := past ++ s.trace } = stepHash s

/-! Errors (60_exceptions). -/

/-- R83: a command that completes with an error has this whole effect: the word is accepted, `LAST_CODE` and `ERR_STICKY` are written, and the
response carries the code, the unchanged `KEY_VALID` and COUNT 0; no byte moves, no kernel is asked, no generator register is
written, and the block accepts commands again. -/
def Obligations.FailedCommandTouchesNothing : Prop :=
  ∀ (s t : State) (w : CmdWord) (ws : List CmdWord),
    s.phase = .idle → s.cmdIn = w :: ws → step s = .next t → t.phase = .idle → t.lastCode ≠ .ok →
    t = { s with
      cmdIn := ws, lastCode := t.lastCode, errSticky := true,
      trace := s.trace ++ [.cmd w, .resp (responseWord t.lastCode s.keyValid 0)] }

/-- R87: however the run goes on, after an error every command does what it would have done without it, with the same hash exchange,
STATUS apart; and a SEED cures
UninitializedState. -/
def Obligations.NothingOfAnErrorRemainsButStatus : Prop :=
  ∀ (e : Error) (s : State), s.phase = .idle →
    (∀ k : Nat, ∃ t u es,
      Host.Core.run Sys2Proof.core k s = .next t ∧ Host.Core.run Sys2Proof.core k (raiseError e s) = .next u ∧
      t.trace = s.trace ++ es ∧ u.trace = (raiseError e s).trace ++ es ∧
      u = { t with
        lastCode := if responses es = [] then e.code else t.lastCode, errSticky := true, trace := u.trace } ∧
      stepHash u = stepHash t) ∧
    ∀ n ≤ s.seedIn.length, ∃ t, exec (.seed n) (raiseError e s) = .next t ∧
      ∀ k, ∃ u, exec (.read k) t = .next u ∧ u.lastCode = .ok

/-! Channels, kernels and instances (30_encoding sections 3 and 4, 60_exceptions section 3). -/

/-- What R56 says: seed bytes are taken only by a SEED, exactly its LEN of them, in channel order; at the port level one per move, and only
in ABSORB while some are still to take. That the step of a SEED short of bytes takes those on offer, and that a byte taken joins the
message on the hash kernel port, is the model's choice (log 10). -/
def Obligations.SeedBytesAreTakenOnlyBySeed : Prop :=
  (∀ (s : State) (w : CmdWord) (ws : List CmdWord), s.phase = .idle → s.cmdIn = w :: ws →
    ∃ t n, step s = .next t ∧
      n = (match decode w with
        | .ok (.seed k) => k
        | _ => 0) ∧
      seedsTaken t.trace = seedsTaken s.trace + min n s.seedIn.length ∧ t.seedIn = s.seedIn.drop n ∧
      (stepHash s = none ∨ stepHash s = some (hashExchange (s.seedIn.take n)))) ∧
  ∀ (g : Grant) (s : State),
    ((portStep g s).seedIn = s.seedIn ∧ seedsTaken (portStep g s).trace = seedsTaken s.trace) ∨
    ∃ b, s.phase = .absorb ∧ 0 < s.remain ∧ s.seedIn = b :: (portStep g s).seedIn ∧
      seedsTaken (portStep g s).trace = seedsTaken s.trace + 1 ∧
      (portStep g s).phase = .absorb ∧ (portStep g s).hashMsg = s.hashMsg ++ [b] ∧ (portStep g s).remain = s.remain - 1

/-- A SEED that completes asks the hash kernel once, with its whole seed; no other command asks it, and no command but READ asks the cipher
kernel. A SEED short of bytes waits and does not ask it yet (R61, log 10). -/
def Obligations.KernelsAreAskedOnlyAsStated : Prop :=
  ∀ (s : State) (w : CmdWord) (ws : List CmdWord), s.phase = .idle → s.cmdIn = w :: ws →
    ∃ t, step s = .next t ∧
      stepHash s =
        (match decode w with
          | .ok (.seed n) => if n ≤ s.seedIn.length then some (hashExchange (s.seedIn.take n)) else none
          | _ => none) ∧
      hashRequests t.trace = hashRequests s.trace + (stepHash s).toList.length ∧
      ((∀ n, decode w ≠ .ok (.read n)) → cipherRequests t.trace = cipherRequests s.trace)

/-- R91: blocks beside each other share nothing: a step of one is its own step and leaves every other as it is. -/
def Obligations.InstancesShareNothing : Prop :=
  ∀ (k : Nat) (blocks : Instances) (s : State), blocks[k]? = some s →
    ∃ t blocks', step s = .next t ∧ stepInstance k blocks = .next blocks' ∧ blocks'[k]? = some t ∧
      ∀ j, j ≠ k → blocks'[j]? = blocks[j]?

/-! Reset (70_reset_and_hazards). -/

/-- R94, R95: reset, in any phase, sets what the spec gives values for, sends no response, asks no kernel, and leaves moved what has moved. -/
def Obligations.ResetAtAnyTime : Prop :=
  ∀ s : State,
    let t := portInput .reset s
    t.keyValid = false ∧ t.lastCode = .ok ∧ t.errSticky = false ∧ t.phase = .idle ∧ t.status = 0#32 ∧
    outBytes t.trace = outBytes s.trace ∧ seedsTaken t.trace = seedsTaken s.trace ∧ t.hashMsg = [] ∧
    responses t.trace = responses s.trace ∧ hashRequests t.trace = hashRequests s.trace ∧
    cipherRequests t.trace = cipherRequests s.trace

/-! The port level (30_encoding section 5). -/

/-- Every move at the port level is a stutter or a part of one step: the block waits, or it is still inside a command and the step from there
is the same step, or the move completes that step; and the hash exchanges are those of the step. What a step inside a command does is the model's choice (log 11). -/
def Obligations.PortMovesRefineTheStep : Prop :=
  ∀ (g : Grant) (s : State),
    (portStep g s = s ∧ portHash g s = none) ∨
    ((portStep g s).phase ≠ .idle ∧ step (portStep g s) = step s ∧
      (stepHash s).toList = (portHash g s).toList ++ (stepHash (portStep g s)).toList) ∨
    (step s = .next (portStep g s) ∧ stepHash s = portHash g s)

/-- With a host that takes everything and kernels that answer, the port level reaches what the step gives, from every state, with
the same hash exchange, if there is one. What a step inside a command does is the model's choice (log 11). -/
def Obligations.PortMovesReachTheStep : Prop :=
  ∀ s t : State, step s = .next t → ∃ k, portRun k s = t ∧ portRunHashes k s = (stepHash s).toList

/-- What is not granted makes the block wait in its phase, unchanged: an untaken byte or response, a kernel that does not answer, seed bytes
not offered (log 13, log 21). -/
def Obligations.PortWaitsForWhatIsNotGranted : Prop :=
  ∀ (g : Grant) (s : State),
    (∀ n b, s.phase = .emit n (some b) → g.outTaken = false → portStep g s = s) ∧
    (∀ w, s.phase = .respond w → g.respTaken = false → portStep g s = s) ∧
    (s.phase = .absorb → s.remain = 0 → g.hashAnswers = false → portStep g s = s) ∧
    (s.phase = .absorb → 0 < s.remain → s.seedIn = [] → portStep g s = s) ∧
    ∀ n, s.phase = .emit n none → 0 < s.remain → s.cursor = 16 → g.cipherAnswers = false → portStep g s = s

/-- The phases of R61 follow each other as it says: the moves of each phase lead to itself or to those named. How the
moves are cut (log 21), and that a seed byte taken joins the message on the hash kernel port (log 10), is the model's choice. -/
def Obligations.PhasesFollowEachOtherAsStated : Prop :=
  ∀ (g : Grant) (s : State),
    (s.phase = .idle →
      (portStep g s).phase = .idle ∨ ((portStep g s).phase = .absorb ∧ (portStep g s).hashMsg = []) ∨
      (∃ n, (portStep g s).phase = .emit n none ∧ (portStep g s).remain = n ∧ s.keyValid = true) ∨
      ∃ w, (portStep g s).phase = .respond w ∧ respCode w ≠ 0#4) ∧
    (s.phase = .absorb →
      portStep g s = s ∨
      (∃ b, (portStep g s).phase = .absorb ∧ (portStep g s).hashMsg = s.hashMsg ++ [b] ∧
        (portStep g s).remain + 1 = s.remain) ∨
      (s.remain = 0 ∧ (portStep g s).phase = .respond 0x10#64)) ∧
    (∀ n, s.phase = .emit n none →
      (portStep g s).phase = .emit n none ∨ (∃ b, (portStep g s).phase = .emit n (some b)) ∨
      (s.remain = 0 ∧ (portStep g s).phase = .respond (responseWord .ok s.keyValid n))) ∧
    (∀ n b, s.phase = .emit n (some b) →
      portStep g s = s ∨ ((portStep g s).phase = .emit n none ∧ (portStep g s).trace = s.trace ++ [.out b])) ∧
    ∀ w, s.phase = .respond w →
      portStep g s = s ∨ ((portStep g s).phase = .idle ∧ (portStep g s).trace = s.trace ++ [.resp w])

/-- Outside IDLE the command port accepts nothing, at either level; that a step there carries the command in progress on is the model's
choice (log 11). -/
def Obligations.CommandPortIsClosedOutsideIdle : Prop :=
  ∀ s : State, s.phase ≠ .idle →
    (∀ g, (portStep g s).cmdIn = s.cmdIn) ∧
    ∃ t, step s = .next t ∧ t.cmdIn = s.cmdIn ∧ commands t.trace = commands s.trace

/-! Assembler (30_encoding section 6). -/

/-- R64: `READ n` with `n ≥ 2^56` stands for `q` READs of 2^56 - 1 and one READ of the rest, if any; they emit the same bytes as one READ of
`n` would and leave the same registers, with one response per command. -/
def Obligations.LongReadExpandsToReads : Prop :=
  ∀ n : Nat, 2 ^ 56 ≤ n →
    (∃ q r, q = n / (2 ^ 56 - 1) ∧ r = n - q * (2 ^ 56 - 1) ∧
      expandRead n = List.replicate q (2 ^ 56 - 1) ++ (if 0 < r then [r] else [])) ∧
    (expandRead n).sum = n ∧ (∀ k ∈ expandRead n, (Instr.read k).WellFormed) ∧
    ∀ s : State, s.keyValid = true → ∃ t u, exec (.read n) s = .next t ∧ runReads (expandRead n) s = .next u ∧
      outBytes u.trace = outBytes t.trace ∧
      u.key = t.key ∧ u.ctr = t.ctr ∧ u.ksb = t.ksb ∧ u.cursor = t.cursor ∧
      (responses u.trace).length = (responses s.trace).length + (expandRead n).length

/-- A SEED line stands for the SEED word of its byte count and for its bytes; a READ line of an encodable length for its one READ word. -/
def Obligations.AssembledLinesDecodeToTheirCommands : Prop :=
  (∀ bs : List Byte, bs.length < 2 ^ 56 → ∃ w,
    (AsmLine.seedHex bs).assemble = some ⟨[w], bs⟩ ∧ decode w = .ok (.seed bs.length)) ∧
  (∀ cs : List Char, cs.length < 2 ^ 56 → (∀ c ∈ cs, c.toNat < 128) → ∃ w,
    (AsmLine.seedText cs).assemble = some ⟨[w], cs.map fun c => BitVec.ofNat 8 c.toNat⟩ ∧
    decode w = .ok (.seed cs.length)) ∧
  (∀ n < 2 ^ 56, ∃ w, (AsmLine.read n).assemble = some ⟨[w], []⟩ ∧ decode w = .ok (.read n)) ∧
  ∀ w, (AsmLine.cmd w).assemble = some ⟨[w], []⟩
end

