-- ==== Sys2Proof/Laws/Bytes.lean ====
section
/-! SUPPORT. Byte strings as numbers (R15, R36), the counter increment (R71) and the port vectors (R41). -/

namespace Sys2Proof.Machine

theorem leVal_lt (bs : List Byte) : leVal bs < 256 ^ bs.length := by
  induction bs with
  | nil => simp [leVal]
  | cons b bs ih =>
    have := b.isLt
    simp only [leVal, List.length_cons, pow_succ]
    omega

/-- Byte `i` of a byte string is digit `i` of its number in base 256 (R15). -/
theorem leVal_digit (bs : List Byte) (i : Nat) (h : i < bs.length) :
    leVal bs / 256 ^ i % 256 = bs[i].toNat := by
  induction bs generalizing i with
  | nil => simp at h
  | cons b bs ih =>
    have hb := b.isLt
    cases i with
    | zero => simp [leVal]; omega
    | succ i =>
      have : leVal (b :: bs) / 256 = leVal bs := by simp only [leVal]; omega
      rw [pow_succ', ← Nat.div_div_eq_div_mul, this]
      exact ih i (by simpa using h)

theorem leVal_injective {as bs : List Byte} (hl : as.length = bs.length) (h : leVal as = leVal bs) : as = bs := by
  refine List.ext_getElem hl fun i h₁ h₂ => BitVec.eq_of_toNat_eq ?_
  rw [← leVal_digit as i h₁, ← leVal_digit bs i h₂, h]

theorem Block.val_lt (c : Block) : Block.val c < 2 ^ 128 := by
  have := leVal_lt c.toList
  simpa [Block.val] using this

theorem Block.val_injective {c d : Block} (h : Block.val c = Block.val d) : c = d :=
  Vector.toList_inj.mp (leVal_injective (by simp) h)

theorem LE16_getElem (k i : Nat) (h : i < 16) : (LE16 k)[i] = BitVec.ofNat 8 (k % 2 ^ 128 / 256 ^ i) := by
  simp [LE16]

/-- The number whose base-256 digits are those of a byte list. -/
theorem leVal_eq_of_digits (bs : List Byte) (k : Nat) (hk : k < 256 ^ bs.length)
    (h : ∀ i (hi : i < bs.length), bs[i].toNat = k / 256 ^ i % 256) : leVal bs = k := by
  induction bs generalizing k with
  | nil => simp at hk; simp [leVal, hk]
  | cons b bs ih =>
    have h0 := h 0 (by simp)
    have hlt : k / 256 < 256 ^ bs.length := by
      simp only [List.length_cons, pow_succ] at hk
      exact Nat.div_lt_of_lt_mul (by omega)
    have ht := ih (k / 256) hlt fun i hi => by
      have := h (i + 1) (by simpa using hi)
      rw [pow_succ', ← Nat.div_div_eq_div_mul] at this
      simpa using this
    simp only [List.getElem_cons_zero, pow_zero, Nat.div_one] at h0
    simp only [leVal, ht, h0]
    omega

theorem val_LE16 (k : Nat) : Block.val (LE16 k) = k % 2 ^ 128 := by
  refine leVal_eq_of_digits _ _ ?_ fun i hi => ?_
  · simpa using Nat.mod_lt k (by decide)
  · have hi' : i < 16 := by simpa using hi
    simp [LE16_getElem _ _ hi']

theorem LE16_val (c : Block) : LE16 (Block.val c) = c :=
  Block.val_injective (by rw [val_LE16, Nat.mod_eq_of_lt (Block.val_lt c)])

theorem LE16_eq_iff (j k : Nat) : LE16 j = LE16 k ↔ j % 2 ^ 128 = k % 2 ^ 128 :=
  ⟨fun h => by rw [← val_LE16, h, val_LE16], fun h => Block.val_injective (by rw [val_LE16, val_LE16, h])⟩

theorem zeroBlock_eq : zeroBlock = LE16 0 := by decide

/-- The carry loop adds 1 to the number, modulo the width (R71). -/
theorem leVal_carryInc (bs : List Byte) : leVal (carryInc bs) = (leVal bs + 1) % 256 ^ bs.length := by
  induction bs with
  | nil => simp [carryInc, leVal]
  | cons b bs ih =>
    have hb := b.isLt
    have hv := leVal_lt bs
    have hw : 256 ^ (b :: bs).length = 256 * 256 ^ bs.length := by simp [pow_succ']
    rw [hw]
    by_cases h : b + 1#8 = 0#8
    · have hb' : b.toNat = 255 := by
        have := congrArg BitVec.toNat h; simp at this; omega
      have hs : leVal (carryInc (b :: bs)) = 256 * leVal (carryInc bs) := by simp [carryInc, h, leVal]
      rw [hs, ih, ← Nat.mul_mod_mul_left]
      simp only [leVal, hb']
      congr 1; omega
    · have hb' : b.toNat ≠ 255 := fun hc => h (BitVec.eq_of_toNat_eq (by simp [hc]))
      have hs : leVal (carryInc (b :: bs)) = b.toNat + 1 + 256 * leVal bs := by
        have : (b.toNat + 1) % 256 = b.toNat + 1 := Nat.mod_eq_of_lt (by omega)
        simp [carryInc, h, leVal, this]
      rw [hs, Nat.mod_eq_of_lt]
      · simp only [leVal]; omega
      · simp only [leVal]; omega

@[simp] theorem ctrInc_toList (c : Block) : (ctrInc c).toList = carryInc c.toList := by
  simp [ctrInc, Vector.toList]

theorem val_ctrInc (c : Block) : Block.val (ctrInc c) = (Block.val c + 1) % 2 ^ 128 := by
  have := leVal_carryInc c.toList
  simpa [Block.val] using this

/-- Incrementing the counter of value `k` gives the counter of value `k + 1` (R71). -/
theorem ctrInc_LE16 (k : Nat) : ctrInc (LE16 k) = LE16 (k + 1) :=
  Block.val_injective (by rw [val_ctrInc, val_LE16, val_LE16, Nat.mod_add_mod])

theorem ctrInc_eq (c : Block) : ctrInc c = LE16 (Block.val c + 1) := by
  rw [← ctrInc_LE16, LE16_val]

/-- Where the increment stops (R71): a byte changes exactly when every byte before it wraps. -/
theorem carryInc_getElem (bs : List Byte) (i : Nat) (h : i < bs.length) :
    (carryInc bs)[i]'(by rwa [carryInc_length]) =
      if ∀ j (hj : j < i), bs[j] = 0xFF#8 then bs[i] + 1#8 else bs[i] := by
  induction bs generalizing i with
  | nil => simp at h
  | cons b bs ih =>
    have hff : b + 1#8 = 0#8 ↔ b = 0xFF#8 := by
      constructor
      · intro hb; bv_omega
      · rintro rfl; rfl
    by_cases hb : b = 0xFF#8
    · subst hb
      cases i with
      | zero => simp [carryInc]
      | succ i =>
        have := ih i (by simpa using h)
        simp only [carryInc, show (0xFF#8 + 1#8 ≠ 0#8) = False by simp, if_false, List.getElem_cons_succ, this]
        congr 1
        apply propext
        constructor
        · intro H j hj
          cases j with
          | zero => rfl
          | succ j => simpa using H j (by omega)
        · intro H j hj
          simpa using H (j + 1) (by omega)
    · have hne : b + 1#8 ≠ 0#8 := fun hc => hb (hff.mp hc)
      cases i with
      | zero => simp [carryInc, hne]
      | succ i =>
        have : ¬ ∀ j (hj : j < i + 1), (b :: bs)[j] = 0xFF#8 := fun H => hb (H 0 (by omega))
        simp only [carryInc, if_pos hne, List.getElem_cons_succ, if_neg this]

theorem wireKey_toNat (k : Key) : (wireKey k).toNat = leVal k.toList := by
  have := leVal_lt k.toList
  simp only [wireKey, BitVec.toNat_ofNat]
  exact Nat.mod_eq_of_lt (by simpa using this)

theorem wireBlock_toNat (b : Block) : (wireBlock b).toNat = Block.val b := by
  simp only [wireBlock, BitVec.toNat_ofNat]
  exact Nat.mod_eq_of_lt (Block.val_lt b)

end Sys2Proof.Machine
end

