-- ==== Sys2Proof/Laws/State.lean ====
section
/-! SUPPORT. What each shared update leaves in each field of State, each lemma true by unfolding once. -/

namespace Sys2Proof.Machine

/-! `record`: only the trace. -/

@[simp] theorem record_keyValid (es : List Event) (s : State) : (record es s).keyValid = s.keyValid := rfl
@[simp] theorem record_key (es : List Event) (s : State) : (record es s).key = s.key := rfl
@[simp] theorem record_ctr (es : List Event) (s : State) : (record es s).ctr = s.ctr := rfl
@[simp] theorem record_ksb (es : List Event) (s : State) : (record es s).ksb = s.ksb := rfl
@[simp] theorem record_cursor (es : List Event) (s : State) : (record es s).cursor = s.cursor := rfl
@[simp] theorem record_lastCode (es : List Event) (s : State) : (record es s).lastCode = s.lastCode := rfl
@[simp] theorem record_errSticky (es : List Event) (s : State) : (record es s).errSticky = s.errSticky := rfl
@[simp] theorem record_phase (es : List Event) (s : State) : (record es s).phase = s.phase := rfl
@[simp] theorem record_remain (es : List Event) (s : State) : (record es s).remain = s.remain := rfl
@[simp] theorem record_cmdIn (es : List Event) (s : State) : (record es s).cmdIn = s.cmdIn := rfl
@[simp] theorem record_seedIn (es : List Event) (s : State) : (record es s).seedIn = s.seedIn := rfl
@[simp] theorem record_hashMsg (es : List Event) (s : State) : (record es s).hashMsg = s.hashMsg := rfl
@[simp] theorem record_trace (es : List Event) (s : State) : (record es s).trace = s.trace ++ es := rfl

/-! `recordCode`: `LAST_CODE` and `ERR_STICKY` (R27, R28). -/

@[simp] theorem recordCode_keyValid (c : Code) (s : State) : (recordCode c s).keyValid = s.keyValid := rfl
@[simp] theorem recordCode_key (c : Code) (s : State) : (recordCode c s).key = s.key := rfl
@[simp] theorem recordCode_ctr (c : Code) (s : State) : (recordCode c s).ctr = s.ctr := rfl
@[simp] theorem recordCode_ksb (c : Code) (s : State) : (recordCode c s).ksb = s.ksb := rfl
@[simp] theorem recordCode_cursor (c : Code) (s : State) : (recordCode c s).cursor = s.cursor := rfl
@[simp] theorem recordCode_lastCode (c : Code) (s : State) : (recordCode c s).lastCode = c := rfl
@[simp] theorem recordCode_errSticky (c : Code) (s : State) : (recordCode c s).errSticky = (s.errSticky || decide (c ≠ .ok)) := rfl
@[simp] theorem recordCode_phase (c : Code) (s : State) : (recordCode c s).phase = s.phase := rfl
@[simp] theorem recordCode_remain (c : Code) (s : State) : (recordCode c s).remain = s.remain := rfl
@[simp] theorem recordCode_cmdIn (c : Code) (s : State) : (recordCode c s).cmdIn = s.cmdIn := rfl
@[simp] theorem recordCode_seedIn (c : Code) (s : State) : (recordCode c s).seedIn = s.seedIn := rfl
@[simp] theorem recordCode_hashMsg (c : Code) (s : State) : (recordCode c s).hashMsg = s.hashMsg := rfl
@[simp] theorem recordCode_trace (c : Code) (s : State) : (recordCode c s).trace = s.trace := rfl

/-! `sendResponse`: IDLE again, the response taken (R61). -/

@[simp] theorem sendResponse_keyValid (w : RespWord) (s : State) : (sendResponse w s).keyValid = s.keyValid := rfl
@[simp] theorem sendResponse_key (w : RespWord) (s : State) : (sendResponse w s).key = s.key := rfl
@[simp] theorem sendResponse_ctr (w : RespWord) (s : State) : (sendResponse w s).ctr = s.ctr := rfl
@[simp] theorem sendResponse_ksb (w : RespWord) (s : State) : (sendResponse w s).ksb = s.ksb := rfl
@[simp] theorem sendResponse_cursor (w : RespWord) (s : State) : (sendResponse w s).cursor = s.cursor := rfl
@[simp] theorem sendResponse_lastCode (w : RespWord) (s : State) : (sendResponse w s).lastCode = s.lastCode := rfl
@[simp] theorem sendResponse_errSticky (w : RespWord) (s : State) : (sendResponse w s).errSticky = s.errSticky := rfl
@[simp] theorem sendResponse_phase (w : RespWord) (s : State) : (sendResponse w s).phase = .idle := rfl
@[simp] theorem sendResponse_remain (w : RespWord) (s : State) : (sendResponse w s).remain = s.remain := rfl
@[simp] theorem sendResponse_cmdIn (w : RespWord) (s : State) : (sendResponse w s).cmdIn = s.cmdIn := rfl
@[simp] theorem sendResponse_seedIn (w : RespWord) (s : State) : (sendResponse w s).seedIn = s.seedIn := rfl
@[simp] theorem sendResponse_hashMsg (w : RespWord) (s : State) : (sendResponse w s).hashMsg = s.hashMsg := rfl
@[simp] theorem sendResponse_trace (w : RespWord) (s : State) : (sendResponse w s).trace = s.trace ++ [.resp w] := rfl

/-! `offerResponse`: `LAST_CODE`, `ERR_STICKY`, RESPOND (R61). -/

@[simp] theorem offerResponse_keyValid (c : Code) (n : Nat) (s : State) : (offerResponse c n s).keyValid = s.keyValid := rfl
@[simp] theorem offerResponse_key (c : Code) (n : Nat) (s : State) : (offerResponse c n s).key = s.key := rfl
@[simp] theorem offerResponse_ctr (c : Code) (n : Nat) (s : State) : (offerResponse c n s).ctr = s.ctr := rfl
@[simp] theorem offerResponse_ksb (c : Code) (n : Nat) (s : State) : (offerResponse c n s).ksb = s.ksb := rfl
@[simp] theorem offerResponse_cursor (c : Code) (n : Nat) (s : State) : (offerResponse c n s).cursor = s.cursor := rfl
@[simp] theorem offerResponse_lastCode (c : Code) (n : Nat) (s : State) : (offerResponse c n s).lastCode = c := rfl
@[simp] theorem offerResponse_errSticky (c : Code) (n : Nat) (s : State) : (offerResponse c n s).errSticky = (s.errSticky || decide (c ≠ .ok)) := rfl
@[simp] theorem offerResponse_phase (c : Code) (n : Nat) (s : State) : (offerResponse c n s).phase = .respond (responseWord c s.keyValid n) := rfl
@[simp] theorem offerResponse_remain (c : Code) (n : Nat) (s : State) : (offerResponse c n s).remain = s.remain := rfl
@[simp] theorem offerResponse_cmdIn (c : Code) (n : Nat) (s : State) : (offerResponse c n s).cmdIn = s.cmdIn := rfl
@[simp] theorem offerResponse_seedIn (c : Code) (n : Nat) (s : State) : (offerResponse c n s).seedIn = s.seedIn := rfl
@[simp] theorem offerResponse_hashMsg (c : Code) (n : Nat) (s : State) : (offerResponse c n s).hashMsg = s.hashMsg := rfl
@[simp] theorem offerResponse_trace (c : Code) (n : Nat) (s : State) : (offerResponse c n s).trace = s.trace := rfl

/-! `complete`: `LAST_CODE`, `ERR_STICKY`, IDLE, the response taken (R54). -/

@[simp] theorem complete_keyValid (c : Code) (n : Nat) (s : State) : (complete c n s).keyValid = s.keyValid := rfl
@[simp] theorem complete_key (c : Code) (n : Nat) (s : State) : (complete c n s).key = s.key := rfl
@[simp] theorem complete_ctr (c : Code) (n : Nat) (s : State) : (complete c n s).ctr = s.ctr := rfl
@[simp] theorem complete_ksb (c : Code) (n : Nat) (s : State) : (complete c n s).ksb = s.ksb := rfl
@[simp] theorem complete_cursor (c : Code) (n : Nat) (s : State) : (complete c n s).cursor = s.cursor := rfl
@[simp] theorem complete_lastCode (c : Code) (n : Nat) (s : State) : (complete c n s).lastCode = c := rfl
@[simp] theorem complete_errSticky (c : Code) (n : Nat) (s : State) : (complete c n s).errSticky = (s.errSticky || decide (c ≠ .ok)) := rfl
@[simp] theorem complete_phase (c : Code) (n : Nat) (s : State) : (complete c n s).phase = .idle := rfl
@[simp] theorem complete_remain (c : Code) (n : Nat) (s : State) : (complete c n s).remain = s.remain := rfl
@[simp] theorem complete_cmdIn (c : Code) (n : Nat) (s : State) : (complete c n s).cmdIn = s.cmdIn := rfl
@[simp] theorem complete_seedIn (c : Code) (n : Nat) (s : State) : (complete c n s).seedIn = s.seedIn := rfl
@[simp] theorem complete_hashMsg (c : Code) (n : Nat) (s : State) : (complete c n s).hashMsg = s.hashMsg := rfl
@[simp] theorem complete_trace (c : Code) (n : Nat) (s : State) : (complete c n s).trace = s.trace ++ [.resp (responseWord c s.keyValid n)] := rfl

/-! `loadSeed`: the state writes of SEED (R65). -/

@[simp] theorem loadSeed_keyValid (m : List Byte) (s : State) : (loadSeed m s).keyValid = true := rfl
@[simp] theorem loadSeed_key (m : List Byte) (s : State) : (loadSeed m s).key = deriveKey m := rfl
@[simp] theorem loadSeed_ctr (m : List Byte) (s : State) : (loadSeed m s).ctr = zeroBlock := rfl
@[simp] theorem loadSeed_ksb (m : List Byte) (s : State) : (loadSeed m s).ksb = s.ksb := rfl
@[simp] theorem loadSeed_cursor (m : List Byte) (s : State) : (loadSeed m s).cursor = 16 := rfl
@[simp] theorem loadSeed_lastCode (m : List Byte) (s : State) : (loadSeed m s).lastCode = s.lastCode := rfl
@[simp] theorem loadSeed_errSticky (m : List Byte) (s : State) : (loadSeed m s).errSticky = s.errSticky := rfl
@[simp] theorem loadSeed_phase (m : List Byte) (s : State) : (loadSeed m s).phase = s.phase := rfl
@[simp] theorem loadSeed_remain (m : List Byte) (s : State) : (loadSeed m s).remain = s.remain := rfl
@[simp] theorem loadSeed_cmdIn (m : List Byte) (s : State) : (loadSeed m s).cmdIn = s.cmdIn := rfl
@[simp] theorem loadSeed_seedIn (m : List Byte) (s : State) : (loadSeed m s).seedIn = s.seedIn := rfl
@[simp] theorem loadSeed_hashMsg (m : List Byte) (s : State) : (loadSeed m s).hashMsg = [] := rfl
@[simp] theorem loadSeed_trace (m : List Byte) (s : State) : (loadSeed m s).trace = s.trace ++ [.hash] := rfl

/-! `refill` (R72). -/

@[simp] theorem refill_keyValid (s : State) : (refill s).keyValid = s.keyValid := rfl
@[simp] theorem refill_key (s : State) : (refill s).key = s.key := rfl
@[simp] theorem refill_ctr (s : State) : (refill s).ctr = ctrInc s.ctr := rfl
@[simp] theorem refill_ksb (s : State) : (refill s).ksb = Config.cipherKernel s.key (ctrInc s.ctr) := rfl
@[simp] theorem refill_cursor (s : State) : (refill s).cursor = 0 := rfl
@[simp] theorem refill_lastCode (s : State) : (refill s).lastCode = s.lastCode := rfl
@[simp] theorem refill_errSticky (s : State) : (refill s).errSticky = s.errSticky := rfl
@[simp] theorem refill_phase (s : State) : (refill s).phase = s.phase := rfl
@[simp] theorem refill_remain (s : State) : (refill s).remain = s.remain := rfl
@[simp] theorem refill_cmdIn (s : State) : (refill s).cmdIn = s.cmdIn := rfl
@[simp] theorem refill_seedIn (s : State) : (refill s).seedIn = s.seedIn := rfl
@[simp] theorem refill_hashMsg (s : State) : (refill s).hashMsg = s.hashMsg := rfl
@[simp] theorem refill_trace (s : State) : (refill s).trace = s.trace ++ [.cipher (wireKey s.key) (wireBlock (ctrInc s.ctr)) (wireBlock (Config.cipherKernel s.key (ctrInc s.ctr)))] := rfl

/-! `byteAt` (R73, R38). -/

@[simp] theorem byteAt_fst (i : Fin 16) (s : State) : (byteAt i s).1 = s.ksb[i] := rfl
@[simp] theorem byteAt_keyValid (i : Fin 16) (s : State) : ((byteAt i s).2).keyValid = s.keyValid := rfl
@[simp] theorem byteAt_key (i : Fin 16) (s : State) : ((byteAt i s).2).key = s.key := rfl
@[simp] theorem byteAt_ctr (i : Fin 16) (s : State) : ((byteAt i s).2).ctr = s.ctr := rfl
@[simp] theorem byteAt_ksb (i : Fin 16) (s : State) : ((byteAt i s).2).ksb = s.ksb := rfl
@[simp] theorem byteAt_cursor (i : Fin 16) (s : State) : ((byteAt i s).2).cursor = i.succ := rfl
@[simp] theorem byteAt_lastCode (i : Fin 16) (s : State) : ((byteAt i s).2).lastCode = s.lastCode := rfl
@[simp] theorem byteAt_errSticky (i : Fin 16) (s : State) : ((byteAt i s).2).errSticky = s.errSticky := rfl
@[simp] theorem byteAt_phase (i : Fin 16) (s : State) : ((byteAt i s).2).phase = s.phase := rfl
@[simp] theorem byteAt_remain (i : Fin 16) (s : State) : ((byteAt i s).2).remain = s.remain := rfl
@[simp] theorem byteAt_cmdIn (i : Fin 16) (s : State) : ((byteAt i s).2).cmdIn = s.cmdIn := rfl
@[simp] theorem byteAt_seedIn (i : Fin 16) (s : State) : ((byteAt i s).2).seedIn = s.seedIn := rfl
@[simp] theorem byteAt_hashMsg (i : Fin 16) (s : State) : ((byteAt i s).2).hashMsg = s.hashMsg := rfl
@[simp] theorem byteAt_trace (i : Fin 16) (s : State) : ((byteAt i s).2).trace = s.trace := rfl

/-! `startSeed` (R61). -/

@[simp] theorem startSeed_keyValid (n : Nat) (s : State) : (startSeed n s).keyValid = s.keyValid := rfl
@[simp] theorem startSeed_key (n : Nat) (s : State) : (startSeed n s).key = s.key := rfl
@[simp] theorem startSeed_ctr (n : Nat) (s : State) : (startSeed n s).ctr = s.ctr := rfl
@[simp] theorem startSeed_ksb (n : Nat) (s : State) : (startSeed n s).ksb = s.ksb := rfl
@[simp] theorem startSeed_cursor (n : Nat) (s : State) : (startSeed n s).cursor = s.cursor := rfl
@[simp] theorem startSeed_lastCode (n : Nat) (s : State) : (startSeed n s).lastCode = s.lastCode := rfl
@[simp] theorem startSeed_errSticky (n : Nat) (s : State) : (startSeed n s).errSticky = s.errSticky := rfl
@[simp] theorem startSeed_phase (n : Nat) (s : State) : (startSeed n s).phase = s.phase := rfl
@[simp] theorem startSeed_remain (n : Nat) (s : State) : (startSeed n s).remain = n := rfl
@[simp] theorem startSeed_cmdIn (n : Nat) (s : State) : (startSeed n s).cmdIn = s.cmdIn := rfl
@[simp] theorem startSeed_seedIn (n : Nat) (s : State) : (startSeed n s).seedIn = s.seedIn := rfl
@[simp] theorem startSeed_hashMsg (n : Nat) (s : State) : (startSeed n s).hashMsg = [] := rfl
@[simp] theorem startSeed_trace (n : Nat) (s : State) : (startSeed n s).trace = s.trace := rfl

/-! `takeSeed` (R56). -/

@[simp] theorem takeSeed_keyValid (k : Nat) (s : State) : (takeSeed k s).keyValid = s.keyValid := rfl
@[simp] theorem takeSeed_key (k : Nat) (s : State) : (takeSeed k s).key = s.key := rfl
@[simp] theorem takeSeed_ctr (k : Nat) (s : State) : (takeSeed k s).ctr = s.ctr := rfl
@[simp] theorem takeSeed_ksb (k : Nat) (s : State) : (takeSeed k s).ksb = s.ksb := rfl
@[simp] theorem takeSeed_cursor (k : Nat) (s : State) : (takeSeed k s).cursor = s.cursor := rfl
@[simp] theorem takeSeed_lastCode (k : Nat) (s : State) : (takeSeed k s).lastCode = s.lastCode := rfl
@[simp] theorem takeSeed_errSticky (k : Nat) (s : State) : (takeSeed k s).errSticky = s.errSticky := rfl
@[simp] theorem takeSeed_phase (k : Nat) (s : State) : (takeSeed k s).phase = s.phase := rfl
@[simp] theorem takeSeed_remain (k : Nat) (s : State) : (takeSeed k s).remain = s.remain - (s.seedIn.take k).length := rfl
@[simp] theorem takeSeed_cmdIn (k : Nat) (s : State) : (takeSeed k s).cmdIn = s.cmdIn := rfl
@[simp] theorem takeSeed_seedIn (k : Nat) (s : State) : (takeSeed k s).seedIn = s.seedIn.drop k := rfl
@[simp] theorem takeSeed_hashMsg (k : Nat) (s : State) : (takeSeed k s).hashMsg = s.hashMsg ++ s.seedIn.take k := rfl
@[simp] theorem takeSeed_trace (k : Nat) (s : State) : (takeSeed k s).trace = s.trace ++ List.replicate (s.seedIn.take k).length .seed := rfl

/-! `resetBlock` (R94, R95). -/

@[simp] theorem resetBlock_keyValid (s : State) : (resetBlock s).keyValid = State.reset.keyValid := rfl
@[simp] theorem resetBlock_key (s : State) : (resetBlock s).key = State.reset.key := rfl
@[simp] theorem resetBlock_ctr (s : State) : (resetBlock s).ctr = State.reset.ctr := rfl
@[simp] theorem resetBlock_ksb (s : State) : (resetBlock s).ksb = State.reset.ksb := rfl
@[simp] theorem resetBlock_cursor (s : State) : (resetBlock s).cursor = State.reset.cursor := rfl
@[simp] theorem resetBlock_lastCode (s : State) : (resetBlock s).lastCode = State.reset.lastCode := rfl
@[simp] theorem resetBlock_errSticky (s : State) : (resetBlock s).errSticky = State.reset.errSticky := rfl
@[simp] theorem resetBlock_phase (s : State) : (resetBlock s).phase = State.reset.phase := rfl
@[simp] theorem resetBlock_remain (s : State) : (resetBlock s).remain = State.reset.remain := rfl
@[simp] theorem resetBlock_cmdIn (s : State) : (resetBlock s).cmdIn = s.cmdIn := rfl
@[simp] theorem resetBlock_seedIn (s : State) : (resetBlock s).seedIn = s.seedIn := rfl
@[simp] theorem resetBlock_hashMsg (s : State) : (resetBlock s).hashMsg = State.reset.hashMsg := rfl
@[simp] theorem resetBlock_trace (s : State) : (resetBlock s).trace = s.trace ++ [.reset] := rfl

/-! `raiseError` and `offerError` are completions with COUNT 0 (R83). -/

theorem raiseError_eq (e : Error) (s : State) : raiseError e s = complete e.code 0 s := rfl
theorem offerError_eq (e : Error) (s : State) : offerError e s = offerResponse e.code 0 s := rfl

/-- Sending the word on offer after `offerResponse` is `complete`. -/
theorem sendResponse_offerResponse (c : Code) (n : Nat) (s : State) :
    sendResponse (responseWord c s.keyValid n) (offerResponse c n s) = complete c n s := rfl

/-- An error's code is not OK (R82). -/
@[simp] theorem Error.code_ne_ok (e : Error) : e.code ≠ .ok := by cases e <;> decide

end Sys2Proof.Machine
end

