-- ==== Sys2Proof/Laws/Trace.lean ====
section
/-! SUPPORT. What moved on each port, over traces put together (R17, R45). -/

namespace Sys2Proof.Machine

@[simp] theorem outBytes_nil : outBytes [] = [] := rfl
@[simp] theorem outBytes_append (es fs : List Event) : outBytes (es ++ fs) = outBytes es ++ outBytes fs := List.filterMap_append
@[simp] theorem outBytes_cmd (w : CmdWord) (es : List Event) : outBytes (.cmd w :: es) = outBytes es := rfl
@[simp] theorem outBytes_seed (es : List Event) : outBytes (.seed :: es) = outBytes es := rfl
@[simp] theorem outBytes_hash (es : List Event) : outBytes (.hash :: es) = outBytes es := rfl
@[simp] theorem outBytes_cipher (k : BitVec 256) (b r : BitVec 128) (es : List Event) : outBytes (.cipher k b r :: es) = outBytes es := rfl
@[simp] theorem outBytes_out (b : Byte) (es : List Event) : outBytes (.out b :: es) = b :: outBytes es := rfl
@[simp] theorem outBytes_resp (w : RespWord) (es : List Event) : outBytes (.resp w :: es) = outBytes es := rfl
@[simp] theorem outBytes_reset (es : List Event) : outBytes (.reset :: es) = outBytes es := rfl

@[simp] theorem responses_nil : responses [] = [] := rfl
@[simp] theorem responses_append (es fs : List Event) : responses (es ++ fs) = responses es ++ responses fs := List.filterMap_append
@[simp] theorem responses_cmd (w : CmdWord) (es : List Event) : responses (.cmd w :: es) = responses es := rfl
@[simp] theorem responses_seed (es : List Event) : responses (.seed :: es) = responses es := rfl
@[simp] theorem responses_hash (es : List Event) : responses (.hash :: es) = responses es := rfl
@[simp] theorem responses_cipher (k : BitVec 256) (b r : BitVec 128) (es : List Event) : responses (.cipher k b r :: es) = responses es := rfl
@[simp] theorem responses_out (b : Byte) (es : List Event) : responses (.out b :: es) = responses es := rfl
@[simp] theorem responses_resp (w : RespWord) (es : List Event) : responses (.resp w :: es) = w :: responses es := rfl
@[simp] theorem responses_reset (es : List Event) : responses (.reset :: es) = responses es := rfl

@[simp] theorem commands_nil : commands [] = [] := rfl
@[simp] theorem commands_append (es fs : List Event) : commands (es ++ fs) = commands es ++ commands fs := List.filterMap_append
@[simp] theorem commands_cmd (w : CmdWord) (es : List Event) : commands (.cmd w :: es) = w :: commands es := rfl
@[simp] theorem commands_seed (es : List Event) : commands (.seed :: es) = commands es := rfl
@[simp] theorem commands_hash (es : List Event) : commands (.hash :: es) = commands es := rfl
@[simp] theorem commands_cipher (k : BitVec 256) (b r : BitVec 128) (es : List Event) : commands (.cipher k b r :: es) = commands es := rfl
@[simp] theorem commands_out (b : Byte) (es : List Event) : commands (.out b :: es) = commands es := rfl
@[simp] theorem commands_resp (w : RespWord) (es : List Event) : commands (.resp w :: es) = commands es := rfl
@[simp] theorem commands_reset (es : List Event) : commands (.reset :: es) = commands es := rfl

@[simp] theorem cipherRequests_nil : cipherRequests [] = [] := rfl
@[simp] theorem cipherRequests_append (es fs : List Event) : cipherRequests (es ++ fs) = cipherRequests es ++ cipherRequests fs := List.filterMap_append
@[simp] theorem cipherRequests_cmd (w : CmdWord) (es : List Event) : cipherRequests (.cmd w :: es) = cipherRequests es := rfl
@[simp] theorem cipherRequests_seed (es : List Event) : cipherRequests (.seed :: es) = cipherRequests es := rfl
@[simp] theorem cipherRequests_hash (es : List Event) : cipherRequests (.hash :: es) = cipherRequests es := rfl
@[simp] theorem cipherRequests_cipher (k : BitVec 256) (b r : BitVec 128) (es : List Event) : cipherRequests (.cipher k b r :: es) = (k, b) :: cipherRequests es := rfl
@[simp] theorem cipherRequests_out (b : Byte) (es : List Event) : cipherRequests (.out b :: es) = cipherRequests es := rfl
@[simp] theorem cipherRequests_resp (w : RespWord) (es : List Event) : cipherRequests (.resp w :: es) = cipherRequests es := rfl
@[simp] theorem cipherRequests_reset (es : List Event) : cipherRequests (.reset :: es) = cipherRequests es := rfl

@[simp] theorem seedsTaken_nil : seedsTaken [] = 0 := rfl
@[simp] theorem seedsTaken_append (es fs : List Event) : seedsTaken (es ++ fs) = seedsTaken es + seedsTaken fs := by simp [seedsTaken]
@[simp] theorem seedsTaken_cmd (w : CmdWord) (es : List Event) : seedsTaken (.cmd w :: es) = seedsTaken es := rfl
@[simp] theorem seedsTaken_seed (es : List Event) : seedsTaken (.seed :: es) = seedsTaken es + 1 := rfl
@[simp] theorem seedsTaken_hash (es : List Event) : seedsTaken (.hash :: es) = seedsTaken es := rfl
@[simp] theorem seedsTaken_cipher (k : BitVec 256) (b r : BitVec 128) (es : List Event) : seedsTaken (.cipher k b r :: es) = seedsTaken es := rfl
@[simp] theorem seedsTaken_out (b : Byte) (es : List Event) : seedsTaken (.out b :: es) = seedsTaken es := rfl
@[simp] theorem seedsTaken_resp (w : RespWord) (es : List Event) : seedsTaken (.resp w :: es) = seedsTaken es := rfl
@[simp] theorem seedsTaken_reset (es : List Event) : seedsTaken (.reset :: es) = seedsTaken es := rfl

@[simp] theorem hashRequests_nil : hashRequests [] = 0 := rfl
@[simp] theorem hashRequests_append (es fs : List Event) : hashRequests (es ++ fs) = hashRequests es + hashRequests fs := by simp [hashRequests]
@[simp] theorem hashRequests_cmd (w : CmdWord) (es : List Event) : hashRequests (.cmd w :: es) = hashRequests es := rfl
@[simp] theorem hashRequests_seed (es : List Event) : hashRequests (.seed :: es) = hashRequests es := rfl
@[simp] theorem hashRequests_hash (es : List Event) : hashRequests (.hash :: es) = hashRequests es + 1 := rfl
@[simp] theorem hashRequests_cipher (k : BitVec 256) (b r : BitVec 128) (es : List Event) : hashRequests (.cipher k b r :: es) = hashRequests es := rfl
@[simp] theorem hashRequests_out (b : Byte) (es : List Event) : hashRequests (.out b :: es) = hashRequests es := rfl
@[simp] theorem hashRequests_resp (w : RespWord) (es : List Event) : hashRequests (.resp w :: es) = hashRequests es := rfl
@[simp] theorem hashRequests_reset (es : List Event) : hashRequests (.reset :: es) = hashRequests es := rfl

/-- Seed bytes taken are only seed bytes. -/
theorem events_of_seed_bytes (n : Nat) :
    outBytes (List.replicate n .seed) = [] ∧ responses (List.replicate n .seed) = [] ∧
    commands (List.replicate n .seed) = [] ∧ cipherRequests (List.replicate n .seed) = [] ∧
    seedsTaken (List.replicate n .seed) = n ∧ hashRequests (List.replicate n .seed) = 0 := by
  induction n with
  | zero => simp
  | succ n ih => simp [List.replicate_succ, ih]

@[simp] theorem outBytes_seeds (n : Nat) : outBytes (List.replicate n .seed) = [] := (events_of_seed_bytes n).1
@[simp] theorem responses_seeds (n : Nat) : responses (List.replicate n .seed) = [] := (events_of_seed_bytes n).2.1
@[simp] theorem commands_seeds (n : Nat) : commands (List.replicate n .seed) = [] := (events_of_seed_bytes n).2.2.1
@[simp] theorem cipherRequests_seeds (n : Nat) : cipherRequests (List.replicate n .seed) = [] := (events_of_seed_bytes n).2.2.2.1
@[simp] theorem seedsTaken_seeds (n : Nat) : seedsTaken (List.replicate n .seed) = n := (events_of_seed_bytes n).2.2.2.2.1
@[simp] theorem hashRequests_seeds (n : Nat) : hashRequests (List.replicate n .seed) = 0 := (events_of_seed_bytes n).2.2.2.2.2

/-! The view of the current stream. -/

@[simp] theorem streamView_nil : streamView [] = ⟨0, []⟩ := rfl

theorem streamView_append (es fs : List Event) : streamView (es ++ fs) = fs.foldl StreamView.add (streamView es) :=
  List.foldl_append

@[simp] theorem streamView_concat (es : List Event) (e : Event) : streamView (es ++ [e]) = (streamView es).add e := by
  simp [streamView_append]

@[simp] theorem foldl_add_seeds (n : Nat) (v : StreamView) : (List.replicate n Event.seed).foldl StreamView.add v = v := by
  induction n with
  | zero => rfl
  | succ n ih => simpa [List.replicate_succ, StreamView.add] using ih

@[simp] theorem streamView_append_seeds (es : List Event) (n : Nat) :
    streamView (es ++ List.replicate n .seed) = streamView es := by
  simp [streamView_append]

/-! What has moved since the last reset. -/

@[simp] theorem sinceReset_nil : sinceReset [] = [] := rfl

@[simp] theorem sinceReset_concat (es : List Event) (e : Event) :
    sinceReset (es ++ [e]) = if e = .reset then [] else sinceReset es ++ [e] := by
  simp [sinceReset]

/-- With no reset among the later events, they all count. -/
theorem sinceReset_append (es fs : List Event) (h : .reset ∉ fs) : sinceReset (es ++ fs) = sinceReset es ++ fs := by
  induction fs using List.reverseRecOn with
  | nil => simp
  | append_singleton fs e ih =>
    rw [← List.append_assoc, sinceReset_concat, if_neg (by rintro rfl; simp at h), ih (by simp_all), List.append_assoc]

@[simp] theorem sinceReset_append_seeds (es : List Event) (n : Nat) :
    sinceReset (es ++ List.replicate n .seed) = sinceReset es ++ List.replicate n .seed :=
  sinceReset_append _ _ (by simp)

end Sys2Proof.Machine
end

