-- ==== Sys2Proof/Laws/Emit.lean ====
section
/-! SUPPORT. The emit step and its repetition (R70, R72, R73): everything they can do. -/

namespace Sys2Proof.Machine

/-- `nextByte` with unread bytes left in the block (R73). -/
theorem nextByte_of_lt (s : State) (h : s.cursor.val < 16) : nextByte s = byteAt ⟨s.cursor.val, h⟩ s := by
  simp [nextByte, h]

/-- `nextByte` with the block exhausted: a refill first (R72, R73). -/
theorem nextByte_of_exhausted (s : State) (h : ¬ s.cursor.val < 16) : nextByte s = byteAt 0 (refill s) := by
  simp [nextByte, h]

/-- The cursor is at most 16 (R23). -/
theorem cursor_le (s : State) : s.cursor.val ≤ 16 := by have := s.cursor.isLt; omega

theorem cursor_eq_of_not_lt {s : State} (h : ¬ s.cursor.val < 16) : s.cursor = 16 := by
  have := cursor_le s
  exact Fin.ext (by simp; omega)

/-- What an emit step leaves alone. -/
theorem nextByte_frame (s : State) :
    (nextByte s).2.keyValid = s.keyValid ∧ (nextByte s).2.key = s.key ∧ (nextByte s).2.lastCode = s.lastCode ∧
    (nextByte s).2.errSticky = s.errSticky ∧ (nextByte s).2.phase = s.phase ∧ (nextByte s).2.remain = s.remain ∧
    (nextByte s).2.cmdIn = s.cmdIn ∧ (nextByte s).2.seedIn = s.seedIn ∧ (nextByte s).2.hashMsg = s.hashMsg := by
  by_cases h : s.cursor.val < 16
  · simp [nextByte_of_lt s h]
  · simp [nextByte_of_exhausted s h]

/-- The cursor after an emit step is in 1..16 (R73). -/
theorem nextByte_cursor (s : State) :
    (nextByte s).2.cursor.val = (if s.cursor.val < 16 then s.cursor.val else 0) + 1 := by
  by_cases h : s.cursor.val < 16
  · simp [nextByte_of_lt s h, h]
  · simp [nextByte_of_exhausted s h, h]

/-- The byte of an emit step is the next byte a READ delivers (R73, R38). -/
theorem nextByte_fst (s : State) : (nextByte s).1 = readByte s 0 := by
  by_cases h : s.cursor.val < 16
  · simp [nextByte_of_lt s h, readByte, h]
  · have hc : s.cursor.val = 16 := by have := cursor_le s; omega
    simp [nextByte_of_exhausted s h, readByte, hc, ctrInc_eq, keyBlock]

/-- The bytes after the first are those of the state after one emit step. -/
theorem readByte_succ (s : State) (j : Nat) : readByte s (j + 1) = readByte (nextByte s).2 j := by
  by_cases h : s.cursor.val < 16
  · simp only [nextByte_of_lt s h, readByte, byteAt_cursor, byteAt_ksb, byteAt_key, byteAt_ctr, Fin.val_succ]
    simp only [show s.cursor.val + 1 + j = s.cursor.val + (j + 1) by omega]
  · have hc : s.cursor.val = 16 := by have := cursor_le s; omega
    have hk : keyBlock s.key (Block.val (ctrInc s.ctr)) = keyBlock s.key (Block.val s.ctr + 1) := by
      rw [keyBlock, keyBlock, val_ctrInc]
      exact congrArg _ ((LE16_eq_iff _ _).mpr (Nat.mod_mod _ _))
    simp only [nextByte_of_exhausted s h, readByte, byteAt_cursor, byteAt_ksb, byteAt_key, byteAt_ctr, refill_key,
      refill_ctr, refill_ksb, Fin.val_succ, hc]
    simp only [show ¬ 16 + (j + 1) < 16 by omega, dite_false, Fin.val_zero]
    by_cases hj : 0 + 1 + j < 16
    · simp only [hj, dite_true, show 16 + (j + 1) - 16 = j + 1 by omega, show (j + 1) / 16 = 0 by omega,
        show (j + 1) % 16 = 0 + 1 + j by omega, ctrInc_eq]
      rfl
    · simp only [hj, dite_false, show 16 + (j + 1) - 16 = (0 + 1 + j - 16) + 16 by omega,
        show (0 + 1 + j - 16 + 16) / 16 = (0 + 1 + j - 16) / 16 + 1 by omega, Nat.add_mod_right, keyBlock, val_ctrInc]
      congr 2
      exact (LE16_eq_iff _ _).mpr (by omega)

/-- What one emit step moves: at most one cipher exchange, then its byte. -/
theorem emitStep_eq (s : State) : emitStep s = record [.out (nextByte s).1] (nextByte s).2 := rfl

/-- What an emit step leaves alone. -/
theorem emitStep_frame (s : State) :
    (emitStep s).keyValid = s.keyValid ∧ (emitStep s).key = s.key ∧ (emitStep s).lastCode = s.lastCode ∧
    (emitStep s).errSticky = s.errSticky ∧ (emitStep s).phase = s.phase ∧ (emitStep s).remain = s.remain ∧
    (emitStep s).cmdIn = s.cmdIn ∧ (emitStep s).seedIn = s.seedIn ∧ (emitStep s).hashMsg = s.hashMsg := by
  simpa [emitStep_eq] using nextByte_frame s

/-- What `n` emit steps leave alone (R70). -/
theorem emitMany_frame (n : Nat) (s : State) :
    (emitMany n s).keyValid = s.keyValid ∧ (emitMany n s).key = s.key ∧ (emitMany n s).lastCode = s.lastCode ∧
    (emitMany n s).errSticky = s.errSticky ∧ (emitMany n s).phase = s.phase ∧ (emitMany n s).remain = s.remain ∧
    (emitMany n s).cmdIn = s.cmdIn ∧ (emitMany n s).seedIn = s.seedIn ∧ (emitMany n s).hashMsg = s.hashMsg := by
  induction n generalizing s with
  | zero => simp [emitMany]
  | succ n ih =>
    have h := emitStep_frame s
    have := ih (emitStep s)
    simp only [emitMany, this, h, and_self]

/-- `a + b` emit steps are `a` and then `b` (R78). -/
theorem emitMany_add (a b : Nat) (s : State) : emitMany (a + b) s = emitMany b (emitMany a s) := by
  induction a generalizing s with
  | zero => simp [emitMany]
  | succ a ih => rw [Nat.add_right_comm]; exact ih (emitStep s)

/-- An emit step does not look at `REMAIN`, `PHASE` or the STATUS fields. -/
theorem emitStep_update (s : State) (r : Nat) (p : Phase) :
    emitStep { s with remain := r, phase := p } = { emitStep s with remain := r, phase := p } := by
  by_cases h : s.cursor.val < 16
  · simp [emitStep, nextByte, h, record, byteAt]
  · simp [emitStep, nextByte, h, record, byteAt, refill]

theorem emitMany_update (n : Nat) (s : State) (r : Nat) (p : Phase) :
    emitMany n { s with remain := r, phase := p } = { emitMany n s with remain := r, phase := p } := by
  induction n generalizing s with
  | zero => rfl
  | succ n ih => rw [emitMany, emitStep_update, ih]; rfl

theorem emitMany_remain (n : Nat) (s : State) (r : Nat) :
    emitMany n { s with remain := r } = { emitMany n s with remain := r } := by
  have h := emitMany_update n s r s.phase
  have hp := (emitMany_frame n s).2.2.2.2.1
  refine h.trans ?_
  rw [← hp]

end Sys2Proof.Machine
end

