-- ==== Sys2Proof/Laws/Encoding.lean ====
section
/-! SUPPORT. The fields of command words and response words (R49, R54), one lemma per word. -/

namespace Sys2Proof

/-- The fields of a word put together from fields (R49). -/
theorem fields_of_packCommand (l : BitVec 56) (r o : BitVec 4) :
    lenField (packCommand l r o) = l ∧ rsvField (packCommand l r o) = r ∧ opcField (packCommand l r o) = o := by
  refine ⟨?_, ?_, ?_⟩ <;>
  · refine BitVec.eq_of_getLsbD_eq fun i hi => ?_
    simp [packCommand, lenField, rsvField, opcField]
    try grind

/-- The length a decoded command carries fits the `LEN` field (R51). -/
theorem len_of_decode {w : CmdWord} {i : Instr} (h : decode w = .ok i) : i.len < 2 ^ 56 := by
  unfold decode at h
  split at h
  · cases h
  · split at h
    · cases h; exact (lenField w).isLt
    · split at h
      · cases h; exact (lenField w).isLt
      · cases h

end Sys2Proof

namespace Sys2Proof.Machine

/-- The fields of a response word (R54). -/
theorem fields_of_responseWord (c : Code) (b : Bool) (n : Nat) :
    respCode (responseWord c b n) = c.bits ∧ respSeeded (responseWord c b n) = BitVec.ofBool b ∧
    respReserved (responseWord c b n) = 0#3 ∧ respCount (responseWord c b n) = n % 2 ^ 56 := by
  have hc : (responseWord c b n).extractLsb' 8 56 = BitVec.ofNat 56 n := by
    refine BitVec.eq_of_getLsbD_eq fun i hi => ?_
    simp [responseWord]
    grind
  refine ⟨?_, ?_, ?_, by rw [respCount, hc]; simp⟩ <;>
  · refine BitVec.eq_of_getLsbD_eq fun i hi => ?_
    simp [respCode, respSeeded, respReserved, responseWord]
    grind

/-- An error's code is not 0 (R55, R82). -/
theorem Error.code_bits_ne_zero (e : Error) : e.code.bits ≠ 0#4 := by cases e <;> decide

end Sys2Proof.Machine
end

