-- ==== Sys2Proof/Laws/PerInstr.lean ====
section
/-! SUPPORT. One lemma per command: its encoding matches its row of the opcode table. -/

namespace Sys2Proof.Laws.TableRow

/-- The mask of both rows of the opcode table (R50). -/
def mask : CmdWord := 0x00000000000000FF#64

/-- The row's match value (R50). -/
def matchOf : Instr → CmdWord
  | .seed _ => 0x0000000000000001#64
  | .read _ => 0x0000000000000002#64

/-- The encoding matches its row under the table's mask, whatever the length. -/
def Statement (i : Instr) : Prop := encode i &&& mask = matchOf i

/-- The low byte of a word put together from fields. -/
theorem packCommand_mask (l : BitVec 56) (o : BitVec 4) :
    packCommand l 0#4 o &&& mask = BitVec.setWidth 64 o := by
  have hm : mask = BitVec.setWidth 64 (BitVec.allOnes 8) := by decide
  refine BitVec.eq_of_getLsbD_eq fun i hi => ?_
  have hmi : mask.getLsbD i = decide (i < 8) := by
    rw [hm, BitVec.getLsbD_setWidth, BitVec.getLsbD_allOnes]; simp [hi]
  rw [BitVec.getLsbD_and, hmi]
  simp [packCommand]
  grind

theorem seed (n : Nat) : Statement (.seed n) := by
  simpa [Statement, encode, matchOf, opcSeed] using packCommand_mask (BitVec.ofNat 56 n) opcSeed

theorem read (n : Nat) : Statement (.read n) := by
  simpa [Statement, encode, matchOf, opcRead] using packCommand_mask (BitVec.ofNat 56 n) opcRead

end Sys2Proof.Laws.TableRow
end

