-- ==== Sys2Proof/Laws/Read.lean ====
section
/-! SUPPORT. Everything `n` emit steps and a successful READ do (R70, R77, R80). -/

namespace Sys2Proof.Machine

/-- The cipher requests of `r` refills from a state (R80): the counter values that follow, in order. -/
def refillRequests (key : Key) (from_ r : Nat) : List (BitVec 256 × BitVec 128) :=
  (List.range r).map fun k => (wireKey key, wireBlock (LE16 (from_ + k + 1)))

/-- What `n` emit steps from `s` to `t` do, besides their frame. -/
structure Emitted (n : Nat) (s t : State) (es : List Event) : Prop where
  trace : t.trace = s.trace ++ es
  kinds : ∀ e ∈ es, (∃ b, e = .out b) ∨ ∃ k b r, e = .cipher k b r
  out : outBytes es = (List.range n).map (readByte s)
  cipher : cipherRequests es = refillRequests s.key (Block.val s.ctr) (refillCount s.cursor n)
  ctr : t.ctr = LE16 (Block.val s.ctr + refillCount s.cursor n)
  cursor : t.cursor.val = s.cursor.val + n - 16 * refillCount s.cursor n
  ksb : t.ksb = if refillCount s.cursor n = 0 then s.ksb
    else keyBlock s.key (Block.val s.ctr + refillCount s.cursor n)

theorem refillCount_zero (c : Nat) : refillCount c 0 = 0 := by simp [refillCount]

theorem refillCount_succ_of_lt {c : Nat} (h : c < 16) (n : Nat) : refillCount c (n + 1) = refillCount (c + 1) n := by
  unfold refillCount; split <;> split <;> omega

theorem refillCount_succ_of_exhausted (n : Nat) : refillCount 16 (n + 1) = refillCount 1 n + 1 := by
  unfold refillCount; split <;> split <;> omega

theorem refillCount_one (n : Nat) : 16 * refillCount 1 n ≤ 1 + n := by
  unfold refillCount; split <;> omega

theorem keyBlock_congr (key : Key) {j k : Nat} (h : j % 2 ^ 128 = k % 2 ^ 128) : keyBlock key j = keyBlock key k := by
  rw [keyBlock, keyBlock, (LE16_eq_iff j k).mpr h]

/-- The events of one emit step. -/
theorem emitStep_events (s : State) :
    (emitStep s).trace = s.trace ++
      (if s.cursor.val < 16 then [] else
        [.cipher (wireKey s.key) (wireBlock (LE16 (Block.val s.ctr + 1)))
          (wireBlock (keyBlock s.key (Block.val s.ctr + 1)))]) ++ [.out (readByte s 0)] := by
  rw [emitStep_eq, record_trace, nextByte_fst]
  by_cases h : s.cursor.val < 16
  · simp [nextByte_of_lt s h, h]
  · simp [nextByte_of_exhausted s h, h, ctrInc_eq, keyBlock]

/-- Everything `n` emit steps do. -/
theorem emitMany_spec (n : Nat) (s : State) : ∃ es, Emitted n s (emitMany n s) es := by
  induction n generalizing s with
  | zero =>
    exact ⟨[], by simp [emitMany], by simp, rfl, by simp [refillCount_zero, refillRequests],
      by simp [emitMany, refillCount_zero, LE16_val], by simp [emitMany, refillCount_zero], by simp [emitMany, refillCount_zero]⟩
  | succ n ih =>
    obtain ⟨es, h⟩ := ih (emitStep s)
    have hout : ∀ j, readByte (emitStep s) j = readByte s (j + 1) := fun j => by
      rw [readByte_succ]; rfl
    have hrange : (List.range (n + 1)).map (readByte s) =
        readByte s 0 :: (List.range n).map (readByte (emitStep s)) := by
      rw [List.range_succ_eq_map, List.map_cons, List.map_map]
      exact congrArg _ (List.map_congr_left fun j _ => (hout j).symm)
    have hkey : (emitStep s).key = s.key := (emitStep_frame s).2.1
    have hev := emitStep_events s
    have hcur : (emitStep s).cursor.val = (if s.cursor.val < 16 then s.cursor.val else 0) + 1 := by
      rw [emitStep_eq]; exact nextByte_cursor s
    by_cases hc : s.cursor.val < 16
    · have hctr : (emitStep s).ctr = s.ctr := by rw [emitStep_eq]; simp [nextByte_of_lt s hc]
      have hksb : (emitStep s).ksb = s.ksb := by rw [emitStep_eq]; simp [nextByte_of_lt s hc]
      have hr := refillCount_succ_of_lt hc n
      rw [if_pos hc] at hcur hev
      refine ⟨.out (readByte s 0) :: es, ?_, ?_, ?_, ?_, ?_, ?_, ?_⟩
      · rw [emitMany, h.trace, hev]; simp
      · simpa using h.kinds
      · rw [hrange, outBytes_out, h.out]
      · rw [cipherRequests_out, h.cipher, hkey, hctr, hcur, hr]
      · rw [emitMany, h.ctr, hctr, hcur, hr]
      · rw [emitMany, h.cursor, hcur, hr]; omega
      · rw [emitMany, h.ksb, hksb, hkey, hctr, hcur, hr]
    · have h16 : s.cursor.val = 16 := by have := cursor_le s; omega
      have hctr : (emitStep s).ctr = LE16 (Block.val s.ctr + 1) := by
        rw [emitStep_eq]; simp [nextByte_of_exhausted s hc, ctrInc_eq]
      have hksb : (emitStep s).ksb = keyBlock s.key (Block.val s.ctr + 1) := by
        rw [emitStep_eq]; simp [nextByte_of_exhausted s hc, ctrInc_eq, keyBlock]
      have hr := refillCount_succ_of_exhausted n
      have h1 := refillCount_one n
      rw [if_neg hc] at hcur hev
      have hcur1 : (emitStep s).cursor.val = 1 := by omega
      refine ⟨.cipher (wireKey s.key) (wireBlock (LE16 (Block.val s.ctr + 1)))
          (wireBlock (keyBlock s.key (Block.val s.ctr + 1))) :: .out (readByte s 0) :: es, ?_, ?_, ?_, ?_, ?_, ?_, ?_⟩
      · rw [emitMany, h.trace, hev]; simp
      · simpa using h.kinds
      · rw [hrange, outBytes_cipher, outBytes_out, h.out]
      · rw [cipherRequests_cipher, cipherRequests_out, h.cipher, hkey, hctr, hcur1, h16, hr, refillRequests,
          refillRequests, List.range_succ_eq_map, List.map_cons, List.map_map]
        refine congrArg _ (List.map_congr_left fun k _ => ?_)
        simp only [Function.comp_apply, val_LE16]
        rw [(LE16_eq_iff _ _).mpr (show ((Block.val s.ctr + 1) % 2 ^ 128 + k + 1) % 2 ^ 128 = (Block.val s.ctr + k.succ + 1) % 2 ^ 128 by omega)]
      · rw [emitMany, h.ctr, hctr, hcur1, h16, hr, val_LE16]
        exact (LE16_eq_iff _ _).mpr (by omega)
      · rw [emitMany, h.cursor, hcur1, h16, hr]; omega
      · rw [emitMany, h.ksb, hksb, hkey, hctr, hcur1, h16, hr, val_LE16, if_neg (Nat.succ_ne_zero _)]
        split
        · rename_i h0; rw [h0]
        · exact keyBlock_congr _ (by omega)

/-- The events of emit steps are on no port but the output and the cipher port. -/
theorem emissions_elsewhere {es : List Event} (h : ∀ e ∈ es, (∃ b, e = .out b) ∨ ∃ k b r, e = .cipher k b r) :
    responses es = [] ∧ commands es = [] ∧ seedsTaken es = 0 ∧ hashRequests es = 0 ∧ .reset ∉ es := by
  induction es with
  | nil => simp
  | cons e es ih =>
    have := ih fun x hx => h x (by simp [hx])
    rcases h e (by simp) with ⟨b, rfl⟩ | ⟨k, b, r, rfl⟩ <;> simp_all

/-- What a READ in EMIT leaves alone and what its end leaves (R70). -/
theorem emitRemaining_frame (n : Nat) (s : State) :
    (emitRemaining n s).key = s.key ∧ (emitRemaining n s).keyValid = s.keyValid ∧
    (emitRemaining n s).errSticky = s.errSticky ∧ (emitRemaining n s).cmdIn = s.cmdIn ∧
    (emitRemaining n s).seedIn = s.seedIn ∧ (emitRemaining n s).hashMsg = s.hashMsg ∧ (emitRemaining n s).phase = .idle ∧
    (emitRemaining n s).remain = 0 ∧ (emitRemaining n s).lastCode = .ok := by
  simp [emitRemaining, emitMany_frame]

/-- It does not look at the phase it finds. -/
theorem emitRemaining_phase (n : Nat) (s : State) (p : Phase) :
    emitRemaining n { s with phase := p } = emitRemaining n s := by
  have h := emitMany_update s.remain s s.remain p
  simp only [emitRemaining]
  change complete .ok n { emitMany s.remain { s with phase := p } with remain := 0 } = _
  rw [show ({ s with phase := p } : State) = { s with remain := s.remain, phase := p } from rfl, h]
  rfl

/-- Everything a successful READ of `n` bytes does (R70). -/
theorem execRead_seeded (n : Nat) (s : State) (h : s.keyValid = true) :
    execRead n s = .next (complete .ok n { emitMany n s with remain := 0 }) := by
  rw [execRead, if_pos h, emitRemaining, emitMany_remain]

/-- A READ of a block never seeded (R84). -/
theorem execRead_unseeded (n : Nat) (s : State) (h : s.keyValid = false) :
    execRead n s = .next (raiseError .uninitializedState s) := by
  simp [execRead, h]

end Sys2Proof.Machine
end

