-- ==== Sys2Proof/Laws/Seed.lean ====
section
/-! SUPPORT. The two outcomes of a SEED (R65, R61): everything it can do. -/

namespace Sys2Proof.Machine

/-- With enough seed bytes on offer, the SEED in ABSORB has its message (R59). -/
theorem seedMessage_some (s : State) (h : s.remain ≤ s.seedIn.length) :
    seedMessage s = some (s.hashMsg ++ s.seedIn.take s.remain) := by
  have : s.remain - min s.remain s.seedIn.length = 0 := by omega
  simp [seedMessage, this]

/-- With too few, it has none yet. -/
theorem seedMessage_none (s : State) (h : s.seedIn.length < s.remain) : seedMessage s = none := by
  have : ¬ s.remain - min s.remain s.seedIn.length = 0 := by omega
  simp [seedMessage, this]

/-- With enough seed bytes on offer, a SEED in ABSORB completes (R65). -/
theorem absorbSeed_completes (s : State) (h : s.remain ≤ s.seedIn.length) :
    absorbSeed s = complete .ok 0 (loadSeed (s.hashMsg ++ s.seedIn.take s.remain) (takeSeed s.remain s)) := by
  simp only [absorbSeed, seedMessage_some s h]

/-- With too few, it takes those on offer and waits (R61, R98). -/
theorem absorbSeed_waits (s : State) (h : s.seedIn.length < s.remain) :
    absorbSeed s = { s with
      phase := .absorb, remain := s.remain - s.seedIn.length, seedIn := [], hashMsg := s.hashMsg ++ s.seedIn,
      trace := s.trace ++ List.replicate s.seedIn.length .seed } := by
  simp only [absorbSeed, seedMessage_none s h]
  simp [takeSeed, record, List.take_of_length_le (Nat.le_of_lt h), List.drop_of_length_le (Nat.le_of_lt h)]

/-- SEED with its bytes on offer (R65). -/
theorem execSeed_completes (n : Nat) (s : State) (h : n ≤ s.seedIn.length) :
    execSeed n s = .next (complete .ok 0 (loadSeed (s.seedIn.take n) (takeSeed n (startSeed n s)))) := by
  rw [execSeed, absorbSeed_completes _ (by simpa using h)]
  rfl

/-- SEED short of bytes (R61, R98). -/
theorem execSeed_waits (n : Nat) (s : State) (h : s.seedIn.length < n) :
    execSeed n s = .next { s with
      phase := .absorb, remain := n - s.seedIn.length, seedIn := [], hashMsg := s.seedIn,
      trace := s.trace ++ List.replicate s.seedIn.length .seed } := by
  rw [execSeed, absorbSeed_waits _ (by simpa using h)]
  rfl

/-- SEED does not look at the phase it finds. -/
theorem absorbSeed_phase (s : State) (p : Phase) : absorbSeed { s with phase := p } = absorbSeed s := by
  by_cases h : s.remain ≤ s.seedIn.length
  · rw [absorbSeed_completes _ (by simpa using h), absorbSeed_completes _ h]
    rfl
  · rw [absorbSeed_waits _ (by simpa using h), absorbSeed_waits _ (by omega)]

/-- The exchange of a SEED that has its bytes (R59). -/
theorem absorbHash_some (s : State) (h : s.remain ≤ s.seedIn.length) :
    absorbHash s = some (hashExchange (s.hashMsg ++ s.seedIn.take s.remain)) := by
  simp [absorbHash, seedMessage_some s h]

/-- One that has not makes none. -/
theorem absorbHash_none (s : State) (h : s.seedIn.length < s.remain) : absorbHash s = none := by
  simp [absorbHash, seedMessage_none s h]

end Sys2Proof.Machine
end

