-- ==== Sys2Proof/Laws/Step.lean ====
section
/-! SUPPORT. Everything a step and a port-level move can do, and the induction over moves packaged once (R44, R61). -/

namespace Sys2Proof.Machine

/-- Accepting a command word (R61). -/
theorem acceptCommand_cons (s : State) (w : CmdWord) (ws : List CmdWord) (hc : s.cmdIn = w :: ws) :
    acceptCommand s = some (w, { s with cmdIn := ws, trace := s.trace ++ [.cmd w] }) := by
  simp [acceptCommand, hc, record]

/-- A step of an idle block with a word on offer. -/
theorem step_idle_cons (s : State) (w : CmdWord) (ws : List CmdWord) (hp : s.phase = .idle) (hc : s.cmdIn = w :: ws) :
    step s = (match decode w with
      | .ok i => exec i { s with cmdIn := ws, trace := s.trace ++ [.cmd w] }
      | .error _ => .next (raiseError .illegalCommand { s with cmdIn := ws, trace := s.trace ++ [.cmd w] })) := by
  have h := acceptCommand_cons s w ws hc
  generalize ({ s with cmdIn := ws, trace := s.trace ++ [.cmd w] } : State) = s1 at h ⊢
  cases hd : decode w <;> simp only [step, hp, h, hd]

/-- A move of an idle block with a word on offer. -/
theorem portStep_idle_cons (g : Grant) (s : State) (w : CmdWord) (ws : List CmdWord)
    (hp : s.phase = .idle) (hc : s.cmdIn = w :: ws) :
    portStep g s = (match decode w with
      | .ok (.seed n) => beginSeed n { s with cmdIn := ws, trace := s.trace ++ [.cmd w] }
      | .ok (.read n) => beginRead n { s with cmdIn := ws, trace := s.trace ++ [.cmd w] }
      | .error _ => offerError .illegalCommand { s with cmdIn := ws, trace := s.trace ++ [.cmd w] }) := by
  have h := acceptCommand_cons s w ws hc
  generalize ({ s with cmdIn := ws, trace := s.trace ++ [.cmd w] } : State) = s1 at h ⊢
  rcases hd : decode w with _ | (_ | _) <;> simp only [portStep, hp, idleMove, h, hd]

/-- With no word on offer an idle block does nothing. -/
theorem idle_nil (g : Grant) (s : State) (hp : s.phase = .idle) (hc : s.cmdIn = []) :
    step s = .next s ∧ portStep g s = s := by
  simp [step, portStep, hp, idleMove, acceptCommand, hc]

/-- Everything a step can do (R44, R61, R85). -/
theorem step_cases (s : State) :
  (s.phase = .idle ∧ s.cmdIn = [] ∧ step s = .next s) ∨
  (∃ w ws s', s.phase = .idle ∧ s.cmdIn = w :: ws ∧ s' = { s with cmdIn := ws, trace := s.trace ++ [.cmd w] } ∧
    ((∃ n, decode w = .ok (.seed n) ∧ step s = .next (absorbSeed (startSeed n s'))) ∨
     (∃ n, decode w = .ok (.read n) ∧ s'.keyValid = true ∧ step s = .next (emitRemaining n { s' with remain := n })) ∨
     (∃ n, decode w = .ok (.read n) ∧ s'.keyValid = false ∧ step s = .next (raiseError .uninitializedState s')) ∨
     (∃ e, decode w = .error e ∧ step s = .next (raiseError .illegalCommand s')))) ∨
  (s.phase = .absorb ∧ step s = .next (absorbSeed s)) ∨
  (∃ n o, s.phase = .emit n o ∧ step s = .next (emitRemaining n (takeOffered o s))) ∨
  (∃ w, s.phase = .respond w ∧ step s = .next (sendResponse w s)) := by
  rcases hp : s.phase with _ | _ | ⟨n, o⟩ | w
  · rcases hc : s.cmdIn with _ | ⟨w, ws⟩
    · left; exact ⟨rfl, rfl, by simp [step, hp, acceptCommand, hc]⟩
    · right; left
      have hst := step_idle_cons s w ws hp hc
      refine ⟨w, ws, { s with cmdIn := ws, trace := s.trace ++ [.cmd w] }, rfl, rfl, by rw [hp], ?_⟩
      clear hc hp
      rcases hd : decode w with e | (n | n)
      · exact .inr (.inr (.inr ⟨e, rfl, by rw [hst, hd]⟩))
      · exact .inl ⟨n, rfl, by rw [hst, hd]; rfl⟩
      · by_cases hk : s.keyValid = true
        · exact .inr (.inl ⟨n, rfl, hk, by rw [hst, hd]; simp only [exec, execRead]; rw [if_pos hk]⟩)
        · exact .inr (.inr (.inl ⟨n, rfl, by simpa using hk, by rw [hst, hd]; simp only [exec, execRead]; rw [if_neg hk]⟩))
  · right; right; left; exact ⟨rfl, by simp [step, hp, finishCommand]⟩
  · right; right; right; left; exact ⟨n, o, rfl, by simp [step, hp, finishCommand]⟩
  · right; right; right; right; exact ⟨w, rfl, by simp [step, hp, finishCommand]⟩

/-- A property, of the seed of the last SEED and the state, that every kind of port-level move keeps (R61). -/
structure KeptByMoves (P : Option (List Byte) → State → Prop) : Prop where
  seed : ∀ l s w ws n, P l s → s.phase = .idle → s.cmdIn = w :: ws → decode w = .ok (.seed n) →
    P l { s with cmdIn := ws, trace := s.trace ++ [.cmd w], remain := n, hashMsg := [], phase := .absorb }
  read : ∀ l s w ws n, P l s → s.phase = .idle → s.cmdIn = w :: ws → decode w = .ok (.read n) → s.keyValid = true →
    P l { s with cmdIn := ws, trace := s.trace ++ [.cmd w], remain := n, phase := .emit n none }
  error : ∀ l s w ws e, P l s → s.phase = .idle → s.cmdIn = w :: ws →
    P l (offerError e { s with cmdIn := ws, trace := s.trace ++ [.cmd w] })
  take : ∀ l s b bs, P l s → s.phase = .absorb → 0 < s.remain → s.seedIn = b :: bs →
    P l { s with
      seedIn := bs, remain := s.remain - 1, hashMsg := s.hashMsg ++ [b], trace := s.trace ++ [.seed] }
  load : ∀ l s, P l s → s.phase = .absorb → s.remain = 0 →
    P (some s.hashMsg) (offerResponse .ok 0 (loadSeed s.hashMsg s))
  next : ∀ l s n, P l s → s.phase = .emit n none → 0 < s.remain →
    P l { (nextByte s).2 with phase := .emit n (some (nextByte s).1) }
  out : ∀ l s n b, P l s → s.phase = .emit n (some b) →
    P l { s with trace := s.trace ++ [.out b], remain := s.remain - 1, phase := .emit n none }
  done : ∀ l s n, P l s → s.phase = .emit n none → s.remain = 0 → P l (offerResponse .ok n s)
  send : ∀ l s w, P l s → s.phase = .respond w → P l (sendResponse w s)

/-- A move that makes no hash request leaves the seed of the last SEED. -/
theorem portHash_eq_none {g : Grant} {s : State} (h : s.phase ≠ .absorb ∨ s.remain ≠ 0 ∨ g.hashAnswers = false) :
    portHash g s = none := by
  rcases h with h | h | h <;> simp [portHash, h]

/-- Such a property is kept by every move, whatever is granted. -/
theorem KeptByMoves.portStep {P : Option (List Byte) → State → Prop} (hP : KeptByMoves P) (g : Grant)
    (l : Option (List Byte)) (s : State) (h : P l s) : P (seedAfterInput l (.move g) s) (Machine.portStep g s) := by
  simp only [seedAfterInput]
  rcases hp : s.phase with _ | _ | ⟨n, o⟩ | w
  · rw [portHash_eq_none (.inl (by simp [hp]))]
    rcases hc : s.cmdIn with _ | ⟨w, ws⟩
    · simpa [Machine.portStep, hp, idleMove, acceptCommand, hc] using h
    · rcases hd : decode w with e | (n | n)
      · have := hP.error l s w ws .illegalCommand h hp hc
        simpa [Machine.portStep, hp, idleMove, acceptCommand, hc, hd, record] using this
      · have := hP.seed l s w ws n h hp hc hd
        simpa [Machine.portStep, hp, idleMove, acceptCommand, hc, hd, record, beginSeed, startSeed] using this
      · by_cases hk : s.keyValid = true
        · have := hP.read l s w ws n h hp hc hd hk
          simpa [Machine.portStep, hp, idleMove, acceptCommand, hc, hd, record, beginRead, hk] using this
        · have := hP.error l s w ws .uninitializedState h hp hc
          simpa [Machine.portStep, hp, idleMove, acceptCommand, hc, hd, record, beginRead, hk] using this
  · simp only [Machine.portStep, hp, absorbMove]
    split
    · rename_i h0
      split
      · rename_i hg
        have := hP.load l s h hp h0
        simpa [portHash, hp, h0, hg, hashExchange] using this
      · rename_i hg
        rw [portHash_eq_none (.inr (.inr (by simpa using hg)))]; exact h
    · rename_i h0
      rw [portHash_eq_none (.inr (.inl h0))]
      rcases hs : s.seedIn with _ | ⟨b, bs⟩
      · exact h
      · have := hP.take l s b bs h hp (by omega) hs
        simpa [takeSeed, hs, record] using this
  · rw [portHash_eq_none (.inl (by simp [hp]))]
    rcases o with _ | b
    · simp only [Machine.portStep, hp, emitMove]
      split
      · rename_i h0; exact hP.done l s n h hp h0
      · rename_i h0
        split
        · exact h
        · exact hP.next l s n h hp (by omega)
    · simp only [Machine.portStep, hp, emitMove]
      split
      · have := hP.out l s n b h hp
        simpa [takeOffered, record] using this
      · exact h
  · rw [portHash_eq_none (.inl (by simp [hp]))]
    simp only [Machine.portStep, hp]
    split
    · exact hP.send l s w h hp
    · exact h

end Sys2Proof.Machine
end

