-- ==== Sys2Proof/Tests/Slice0.lean ====
section
/-! SUPPORT. Tests with results taken from spec/95_test_vectors.md (V.., P..), and for each statement with hypotheses a state and operands
that meet them together. -/

namespace Sys2Proof.Tests

open Sys2Proof Sys2Proof.Machine

/-! Helpers. -/

/-- The state an outcome gives, the state before it otherwise. -/
def after (s : State) : Host.Outcome State Fault Refusal → State
  | .next t => t
  | _ => s

/-- `k` steps. -/
def steps : Nat → State → State
  | 0, s => s
  | k + 1, s => steps k (after s (step s))

/-- The reset block with command words and seed bytes on offer. -/
def offered (ws : List CmdWord) (bs : List Byte) : State := { State.reset with cmdIn := ws, seedIn := bs }

/-- A seeded block at a cursor and a counter. -/
def seededAt (cursor : Fin 17) (ctr : Block) : State :=
  { State.reset with keyValid := true, cursor := cursor, ctr := ctr }

/-- The counter values of a trace's cipher requests. -/
def counters (es : List Event) : List (BitVec 128) := (cipherRequests es).map (·.2)

/-- A literal as characters. -/
def chars (s : String) : List Char := s.toList

/-! WellFormed: an ill-formed command of each kind is refused (R13, R51), the longest is not. -/

theorem test_seed_of_2_56_bytes_is_ill_formed : ¬ (Instr.seed (2 ^ 56)).WellFormed := by decide
theorem test_read_of_2_56_bytes_is_ill_formed : ¬ (Instr.read (2 ^ 56)).WellFormed := by decide
theorem test_longest_read_is_well_formed : (Instr.read (2 ^ 56 - 1)).WellFormed := by decide

/-! Decoding: V1, V2, V4, V5 (words written out from R49), V6, V9, V9a; and the encoder on the same. -/

theorem test_decode_seed_empty : decode 0x0000000000000001#64 = .ok (.seed 0) := by decide
theorem test_decode_seed_3 : decode 0x0000000000000301#64 = .ok (.seed 3) := by decide
theorem test_decode_read_16 : decode 0x0000000000001002#64 = .ok (.read 16) := by decide
theorem test_decode_read_longest : decode 0xFFFFFFFFFFFFFF02#64 = .ok (.read (2 ^ 56 - 1)) := by decide
theorem test_decode_zero_is_illegal : decode 0#64 = .error (.noSuchOpcode 0#4) := by decide
theorem test_decode_reserved_is_illegal : decode 0x0000000000000012#64 = .error (.reservedNotZero 1#4) := by decide
theorem test_decode_reserved_seed_is_illegal : decode 0x1000000000000011#64 = .error (.reservedNotZero 1#4) := by decide
theorem test_encode_seed_3 : encode (.seed 3) = 0x0000000000000301#64 := by decide
theorem test_encode_read_4096 : encode (.read 4096) = 0x0000000000100002#64 := by decide
theorem test_table_seed : decodeTableWord 64 0x0000000000000001 = some (.seed 0) := by decide
theorem test_table_read : decodeTableWord 64 0x0000000000000502 = some (.read 5) := by decide

/-! Counter increment: V11, V13, V17, V18. -/

theorem test_ctrInc_carries_once : ctrInc #v[0xFF, 0, 0, 0, 0, 0, 0, 0, 0, 0, 0, 0, 0, 0, 0, 0] =
    #v[0, 1, 0, 0, 0, 0, 0, 0, 0, 0, 0, 0, 0, 0, 0, 0] := by decide
theorem test_ctrInc_wraps : ctrInc (Vector.replicate 16 0xFF#8) = Vector.replicate 16 0#8 := by decide
theorem test_ctrInc_stops : ctrInc #v[0, 0xFF, 0, 0, 0, 0, 0, 0, 0, 0, 0, 0, 0, 0, 0, 0] =
    #v[1, 0xFF, 0, 0, 0, 0, 0, 0, 0, 0, 0, 0, 0, 0, 0, 0] := by decide
theorem test_ctrInc_carries_to_the_last : ctrInc #v[0xFF, 0xFF, 0xFF, 0xFF, 0xFF, 0xFF, 0xFF, 0xFF, 0xFF, 0xFF, 0xFF, 0xFF, 0xFF, 0xFF, 0xFF, 0] =
    #v[0, 0, 0, 0, 0, 0, 0, 0, 0, 0, 0, 0, 0, 0, 0, 1] := by decide

/-! SEED: V23, V24, V25 (response, STATUS, cursor, hash message). -/

theorem test_seed_empty :
    responses (steps 1 (offered [0x1#64] [])).trace = [0x10#64] ∧ (steps 1 (offered [0x1#64] [])).status = 0x1#32 ∧
    (steps 1 (offered [0x1#64] [])).cursor = 16 ∧ hashRequests (steps 1 (offered [0x1#64] [])).trace = 1 := by decide
theorem test_seed_abc_hashes_three_bytes :
    (stepHash (offered [0x301#64] [0x61, 0x62, 0x63, 0x64])).map (·.message) = some [0x61, 0x62, 0x63] ∧
    (steps 1 (offered [0x301#64] [0x61, 0x62, 0x63, 0x64])).seedIn = [0x64] := by decide
theorem test_seed_key_is_derived : (steps 1 (offered [0x1#64] [])).key = perturb (Config.hashKernel []) := rfl

/-! READ: V32, V36, V38, V39a (response, counter, cursor, cipher requests). -/

theorem test_read_16_after_seed :
    responses (steps 2 (offered [0x1#64, 0x1002#64] [])).trace = [0x10#64, 0x1010#64] ∧
    (steps 2 (offered [0x1#64, 0x1002#64] [])).cursor = 16 ∧ (steps 2 (offered [0x1#64, 0x1002#64] [])).ctr = LE16 1 := by decide
theorem test_read_20_after_seed :
    counters (steps 2 (offered [0x1#64, 0x1402#64] [])).trace = [1#128, 2#128] ∧
    (steps 2 (offered [0x1#64, 0x1402#64] [])).cursor = 4 := by decide
theorem test_read_first_byte :
    outBytes (steps 2 (offered [0x1#64, 0x102#64] [])).trace =
      [(Config.cipherKernel (perturb (Config.hashKernel []))
        #v[1, 0, 0, 0, 0, 0, 0, 0, 0, 0, 0, 0, 0, 0, 0, 0])[0]] := rfl
theorem test_read_11_from_5_does_not_refill :
    (after State.reset (exec (.read 11) (seededAt 5 (LE16 7)))).cursor = 16 ∧
    counters (after State.reset (exec (.read 11) (seededAt 5 (LE16 7)))).trace = [] := by decide
theorem test_read_carries_the_counter :
    counters (after State.reset (exec (.read 1) (seededAt 16 (LE16 255)))).trace = [0x100#128] := by decide

/-! Errors and STATUS: V40, V41, V42, V43, V44, and P4's last illegal word, which takes no seed bytes. -/

theorem test_unseeded_read :
    responses (steps 1 (offered [0x402#64] [])).trace = [0x1#64] ∧ (steps 1 (offered [0x402#64] [])).status = 0x12#32 := by decide
theorem test_unseeded_read_of_zero : (steps 1 (offered [0x2#64] [])).status = 0x12#32 := by decide
theorem test_illegal_before_unseeded :
    responses (steps 1 (offered [0x12#64] [])).trace = [0x2#64] ∧ (steps 1 (offered [0x12#64] [])).status = 0x22#32 := by decide
theorem test_illegal_when_seeded :
    responses (steps 2 (offered [0x1#64, 0x0#64] [])).trace = [0x10#64, 0x12#64] ∧
    (steps 2 (offered [0x1#64, 0x0#64] [])).status = 0x23#32 := by decide
theorem test_seed_after_error : (steps 2 (offered [0x402#64, 0x1#64] [])).status = 0x3#32 := by decide
theorem test_illegal_seed_word_takes_no_bytes :
    (steps 1 (offered [0x1000000000000011#64] [0x61])).seedIn = [0x61] := by decide
theorem test_reset_status : State.reset.status = 0#32 := by decide

/-! The fetch of one table word, and a SEED that waits. -/

theorem test_withFetchWord_runs_the_word :
    responses (after State.reset (step (State.reset.withFetchWord 64 0x2))).trace = [0x1#64] := by decide
theorem test_seed_short_of_bytes_waits :
    (steps 1 (offered [0x301#64] [0x61])).phase = .absorb ∧ (steps 1 (offered [0x301#64] [0x61])).hashMsg = [0x61] ∧ (steps 1 (offered [0x301#64] [0x61])).remain = 2 := by decide

/-! The port level: SEED "" takes two moves to its response word on offer, and a byte on offer waits for the host. -/

theorem test_port_seed : (portRun 2 (offered [0x1#64] [])).phase = .respond 0x10#64 ∧
    (portRun 3 (offered [0x1#64] [])).phase = .idle := by decide
theorem test_port_reset_drops_the_offered_byte :
    (portInput .reset { seededAt 1 (LE16 1) with phase := .emit 4 (some 0#8), remain := 3 }).phase = .idle := by decide

/-! Assembler: the lines of P2 and P4. -/

theorem test_parse_seed_text : parseLine (chars "SEED \"abc\"          ; 0x0301") =
    some [.seedText ['a', 'b', 'c']] := by decide
theorem test_parse_seed_hex : parseLine (chars "SEED x\"61fF\"") = some [.seedHex [0x61, 0xFF]] := by decide
theorem test_parse_read : parseLine (chars "READ 20") = some [.read 20] := by decide
theorem test_parse_cmd : parseLine (chars ".cmd 0x1000000000000011") = some [.cmd 0x1000000000000011#64] := by decide
theorem test_parse_comment : parseLine (chars "  ; only a comment") = some [] := by decide
theorem test_parse_malformed : parseLine (chars "READ 2 3") = none := by decide
theorem test_assemble_p2 :
    assemble [.read 4, .seedText ['a', 'b', 'c'], .read 20] =
      some ⟨[0x402#64, 0x301#64, 0x1402#64], [0x61, 0x62, 0x63]⟩ := by decide

/-! Witnesses: states and operands that meet a statement's hypotheses together. -/

theorem witness_DecodeOfEncodeIsIdentity : (Instr.seed (2 ^ 56 - 1)).WellFormed ∧ (Instr.read 0).WellFormed := by decide
theorem witness_EncodeOfDecodeIsIdentity : decode 0xFFFFFFFFFFFFFF01#64 = .ok (.seed (2 ^ 56 - 1)) := by decide
theorem witness_StepRunsTheDecodedCommand :
    (offered [0x1002#64, 0x1#64] []).phase = .idle ∧ (offered [0x1002#64, 0x1#64] []).cmdIn = [0x1002#64, 0x1#64] ∧
    decode 0x1002#64 = .ok (.read 16) := by decide
theorem witness_IdleBlockWaitsForACommand : State.reset.phase = .idle ∧ State.reset.cmdIn = [] := by decide
theorem witness_IllegalWord_by_opcode :
    (offered [0x3#64] []).phase = .idle ∧ (offered [0x3#64] []).cmdIn = [0x3#64] ∧
    (0x3#64).extractLsb' 0 4 ≠ 0x1#4 ∧ (0x3#64).extractLsb' 0 4 ≠ 0x2#4 := by decide
theorem witness_IllegalWord_by_reserved :
    (offered [0x11#64] [1]).phase = .idle ∧ (offered [0x11#64] [1]).cmdIn = [0x11#64] ∧
    (0x11#64).extractLsb' 4 4 ≠ 0#4 ∧ 1 ≤ (offered [0x11#64] [1]).seedIn.length := by decide
theorem witness_EveryCommand_completes :
    (offered [0x1#64] []).phase = .idle ∧ (offered [0x1#64] []).cmdIn = [0x1#64] := by decide
theorem witness_EveryCommand_waits :
    (offered [0x201#64] [7]).phase = .idle ∧ (offered [0x201#64] [7]).cmdIn = [0x201#64] ∧
    2 ≤ (offered [0x201#64] [7]).seedIn.length + [9#8].length := by decide
theorem witness_SeedCompletes : 3 ≤ (offered [] [1, 2, 3]).seedIn.length := by decide
theorem witness_SeedDeliveredInPieces : (offered [] [1, 2, 3]).seedIn.length < 4 := by decide
theorem witness_SeedLeavesOnlyItsKey : ([1, 2] : List Byte).length = 2 := by decide
theorem witness_NoSeedIsHeldOutsideAbsorb :
    NoSeedInv State.reset ∧ NoSeedInv { State.reset with phase := .absorb, hashMsg := [3], remain := 1 } ∧
    ∃ t, step State.reset = .next t :=
  ⟨fun _ => rfl, fun h => absurd rfl h, _, rfl⟩
theorem witness_SeedFrame_completes : ∃ t, exec (.seed 0) State.reset = .next t ∧ t.phase = .idle := ⟨_, rfl, rfl⟩
theorem witness_SeedFrame_waits : ∃ t, exec (.seed 1) State.reset = .next t ∧ t.phase = .absorb := ⟨_, rfl, rfl⟩
theorem witness_SeedNeverFails :
    (offered [0x101#64] [5]).phase = .idle ∧ (offered [0x101#64] [5]).cmdIn = [0x101#64] ∧
    decode 0x101#64 = .ok (.seed 1) ∧ 1 ≤ (offered [0x101#64] [5]).seedIn.length := by decide
theorem witness_ReseedDiscardsThePriorState :
    (offered [] [1, 2]).seedIn = [1] ++ [2] ∧ { seededAt 5 (LE16 9) with seedIn := [1] }.seedIn = [1] ++ [] := by decide
theorem witness_PerturbIncrementsOneByte :
    (Vector.replicate 32 0x00#8 : Key)[Config.perturbIndex] = 0x00#8 ∧
    (Vector.replicate 32 0xFF#8 : Key)[Config.perturbIndex] = 0xFF#8 := by simp
theorem witness_CounterWrapsWithoutError :
    (seededAt 16 (Vector.replicate 16 0xFF#8)).ctr = Vector.replicate 16 0xFF#8 ∧
    (seededAt 16 (Vector.replicate 16 0xFF#8)).keyValid = true ∧ 2 ^ 128 - 1 < 2 ^ 128 := by decide
theorem witness_SeededRead : (seededAt 16 zeroBlock).keyValid = true := by decide
theorem witness_ReadIssues_none : 11 ≤ 16 - (seededAt 5 zeroBlock).cursor.val ∧ (seededAt 5 zeroBlock).keyValid = true := by decide
theorem witness_ReadIssues_some : 16 - (seededAt 5 zeroBlock).cursor.val < 12 ∧ (seededAt 5 zeroBlock).keyValid = true := by decide
theorem witness_UnseededRead : State.reset.keyValid = false := by decide
theorem witness_ReadEmitsExactlyItsLength : 2 ^ 56 - 1 < 2 ^ 56 ∧ (seededAt 3 zeroBlock).keyValid = true := by decide
theorem witness_RefillIsLazy_without_refill :
    (seededAt 5 zeroBlock).keyValid = true ∧ 0 < 11 ∧ ((seededAt 5 zeroBlock).cursor.val + 11) % 16 = 0 ∧
    11 ≤ 16 - (seededAt 5 zeroBlock).cursor.val := by decide
theorem witness_RefillIsLazy_with_refill :
    (seededAt 16 zeroBlock).keyValid = true ∧ 0 < 16 ∧ ((seededAt 16 zeroBlock).cursor.val + 16) % 16 = 0 ∧
    16 - (seededAt 16 zeroBlock).cursor.val < 16 := by decide

/-- A block seeded with `""` that has emitted one byte and offers no more. -/
def readOne : State := steps 2 (offered [0x1#64, 0x102#64] [])

theorem witness_KeystreamFormulaIsInvariant :
    readOne.keyValid = true ∧ KeystreamInv (some []) readOne ∧ ∃ t, step readOne = .next t := by
  refine ⟨rfl, fun _ => ⟨⟨[], rfl, rfl⟩, rfl, ?_, ?_, fun _ => ⟨?_, rfl⟩⟩, _, rfl⟩ <;> decide
theorem witness_GeneratorRegistersInvariant :
    readOne.keyValid = true ∧ RegistersInv (some []) readOne ∧ ∃ t, step readOne = .next t := by
  refine ⟨rfl, fun _ => ⟨?_, fun _ => ⟨?_, rfl⟩, [], rfl, rfl⟩, _, rfl⟩ <;> decide
theorem witness_OneResponsePerCommand : ResponseInv readOne ∧ ∃ t, step readOne = .next t :=
  ⟨by unfold ResponseInv; decide, _, rfl⟩
/-- The reset block after an unseeded `READ 4`. -/
def readFailed : State :=
  { State.reset with lastCode := .uninitializedState, errSticky := true, trace := [.cmd 0x402#64, .resp 0x1#64] }

theorem witness_StatusReflectsTheResponses : StatusInv readFailed ∧ ∃ t, step readFailed = .next t := by
  refine ⟨⟨?_, ?_, ?_⟩, _, rfl⟩ <;>
    simp [readFailed, State.reset, sinceReset, hashRequests, responses, Phase.offeredResponse, respCode, Code.bits]
theorem witness_LengthsFitTheirFields : LengthInv readOne ∧ ∃ t, step readOne = .next t :=
  ⟨⟨by decide, fun _ _ h => nomatch (show Phase.idle = _ from h)⟩, _, rfl⟩
theorem witness_EachReadTakesItsStretch : (offered [] [1, 2]).seedIn = [1, 2] ++ [] := by decide
theorem witness_KeyChangesOnlyBySeed : ∃ t, step (offered [0x1#64] []) = .next t ∧ hashRequests t.trace = 1 :=
  ⟨_, rfl, rfl⟩
theorem witness_OnlyResetClearsTheFlags :
    (∃ t, step readOne = .next t) ∧ readOne.keyValid = true ∧
    (steps 1 (offered [0x402#64] [])).errSticky = true ∧ PortInput.offerSeedByte 0 ≠ .reset := ⟨⟨_, rfl⟩, by decide⟩
theorem witness_UnspecifiedResetValues :
    Indistinguishable { State.reset with cursor := 3, ksb := LE16 5 } { State.reset with cursor := 16, remain := 9 } :=
  ⟨rfl, rfl, rfl, rfl, rfl, rfl, rfl, rfl, fun _ h => absurd rfl h, by simp [State.reset]⟩
theorem witness_FailedCommandTouchesNothing :
    (offered [0x402#64] []).phase = .idle ∧ (offered [0x402#64] []).cmdIn = [0x402#64] ∧
    ∃ t, step (offered [0x402#64] []) = .next t ∧ t.phase = .idle ∧ t.lastCode ≠ .ok :=
  ⟨rfl, rfl, _, rfl, rfl, by decide⟩
theorem witness_NothingOfAnErrorRemains : (offered [0x101#64] [4]).phase = .idle ∧ 1 ≤ (offered [0x101#64] [4]).seedIn.length := by
  decide
theorem witness_SeedBytesAreTakenOnlyBySeed :
    (offered [0x201#64] [4]).phase = .idle ∧ (offered [0x201#64] [4]).cmdIn = [0x201#64] := by decide
theorem witness_KernelsAreAskedOnlyAsStated :
    (offered [0x101#64] [4]).phase = .idle ∧ (offered [0x101#64] [4]).cmdIn = [0x101#64] ∧
    decode 0x101#64 ≠ .ok (.read 1) := by decide
theorem witness_InstancesShareNothing :
    ([State.reset, offered [0x1#64] []] : Instances)[1]? = some (offered [0x1#64] []) ∧ 0 ≠ 1 := by decide
theorem witness_PortMovesReachTheStep : ∃ t, step (offered [0x102#64, 0x1#64] []) = .next t := ⟨_, rfl⟩
theorem witness_PortWaits_out :
    { seededAt 1 zeroBlock with phase := .emit 4 (some 7) }.phase = .emit 4 (some 7) ∧ (⟨true, true, false, true⟩ : Grant).outTaken = false := by
  decide
theorem witness_PortWaits_response :
    { State.reset with phase := .respond 0x2#64 }.phase = .respond 0x2#64 ∧ (⟨true, true, true, false⟩ : Grant).respTaken = false := by
  decide
theorem witness_PortWaits_hash :
    { State.reset with phase := .absorb, hashMsg := [1], remain := 0 }.phase = .absorb ∧
    { State.reset with phase := .absorb, hashMsg := [1], remain := 0 }.remain = 0 ∧ (⟨false, true, true, true⟩ : Grant).hashAnswers = false := by
  decide
theorem witness_PortWaits_seed :
    { State.reset with phase := .absorb, remain := 1 }.phase = .absorb ∧
    0 < { State.reset with phase := .absorb, remain := 1 }.remain ∧
    { State.reset with phase := .absorb, remain := 1 }.seedIn = [] := by decide
theorem witness_PortWaits_cipher :
    { seededAt 16 zeroBlock with phase := .emit 1 none, remain := 1 }.phase = .emit 1 none ∧
    0 < { seededAt 16 zeroBlock with phase := .emit 1 none, remain := 1 }.remain ∧
    { seededAt 16 zeroBlock with phase := .emit 1 none, remain := 1 }.cursor = 16 ∧
    (⟨true, false, true, true⟩ : Grant).cipherAnswers = false := by decide
theorem witness_CommandPortIsClosedOutsideIdle : { State.reset with phase := .absorb }.phase ≠ .idle := by decide
theorem witness_Phases_follow :
    State.reset.phase = .idle ∧ { State.reset with phase := .absorb, hashMsg := [3] }.phase = .absorb ∧
    { State.reset with phase := .emit 2 none }.phase = .emit 2 none ∧
    { State.reset with phase := .emit 2 (some 1) }.phase = .emit 2 (some 1) ∧
    { State.reset with phase := .respond 0x10#64 }.phase = .respond 0x10#64 := by decide
theorem witness_LongReadExpandsToReads : (seededAt 2 zeroBlock).keyValid = true ∧ ∃ n, 2 ^ 56 ≤ n := ⟨rfl, _, le_rfl⟩
theorem witness_AssembledLines :
    ([1, 2] : List Byte).length < 2 ^ 56 ∧ (['a'] : List Char).length < 2 ^ 56 ∧ (∀ c ∈ ['a'], c.toNat < 128) ∧
    2 ^ 56 - 1 < 2 ^ 56 := by norm_num; decide

end Sys2Proof.Tests
end

section
/-! PROOFS. The step as a run of granted moves (R61), and the family of 10_state. -/

namespace Sys2Proof.Machine

/-! What a SEED does with its seed on offer, as one record (R65, R66). -/

/-- The state after a SEED of `n` bytes with key `k`, the seed bytes `rest` still on offer (R65, R68, R69). -/
def afterSeed (n : Nat) (k : Key) (rest : List Byte) (s : State) : State :=
  { s with
    keyValid := true, key := k, ctr := zeroBlock, cursor := 16, lastCode := .ok, phase := .idle, remain := 0,
    seedIn := rest, hashMsg := [],
    trace := s.trace ++ List.replicate n .seed ++ [.hash, .resp (responseWord .ok true 0)] }

/-- The whole effect of a SEED with its bytes on offer (R65). -/
theorem execSeed_eq_afterSeed (n : Nat) (s : State) (h : n ≤ s.seedIn.length) :
    execSeed n s = .next (afterSeed n (deriveKey (s.seedIn.take n)) (s.seedIn.drop n) s) := by
  rw [execSeed_completes n s h]
  simp [complete, sendResponse, recordCode, loadSeed, takeSeed, startSeed, record, afterSeed, h]

/-- Settles O11: of the seed, `afterSeed` takes the derived key and the length only. -/
theorem seedLeavesOnlyItsKey : Obligations.SeedLeavesOnlyItsKey := by
  intro n s rest
  refine ⟨fun k => afterSeed n k rest s, fun m hm => ?_⟩
  subst hm
  have h := execSeed_eq_afterSeed m.length { s with seedIn := m ++ rest } (by simp)
  simpa [exec, afterSeed] using h

/-! Taking seed bytes one by one (R56, R61). -/

/-- Taking `a` seed bytes and then `b` is taking `a + b`. -/
theorem takeSeed_takeSeed (a b : Nat) (s : State) : takeSeed b (takeSeed a s) = takeSeed (a + b) s := by
  have hlen : min a s.seedIn.length + min b (s.seedIn.length - a) = min (a + b) s.seedIn.length := by omega
  simp [takeSeed, record, List.take_add, Nat.sub_sub, hlen]

/-- A SEED in ABSORB is a function of the state once it has taken what it can: the end, and the hash exchange. -/
theorem absorbSeed_congr {s t : State} (h : takeSeed s.remain s = takeSeed t.remain t) :
    absorbSeed s = absorbSeed t ∧ absorbHash s = absorbHash t := by
  simp only [absorbSeed, absorbHash, seedMessage, h, and_self]

/-- With one more byte taken, the SEED in ABSORB has the same end and the same hash exchange. -/
theorem absorbSeed_takeSeed_one (s : State) (hr : 0 < s.remain) (hs : s.seedIn ≠ []) :
    absorbSeed (takeSeed 1 s) = absorbSeed s ∧ absorbHash (takeSeed 1 s) = absorbHash s := by
  have hlen := List.length_pos_iff.mpr hs
  have hrem : (takeSeed 1 s).remain = s.remain - 1 := by simp; omega
  apply absorbSeed_congr
  rw [takeSeed_takeSeed, hrem, Nat.add_sub_cancel' hr]

/-- With no byte on offer and some still to take, a SEED in ABSORB stays as it is (R98). -/
theorem absorbSeed_of_none_offered (s : State) (hp : s.phase = .absorb) (hs : s.seedIn = []) (hr : 0 < s.remain) :
    absorbSeed s = s := by
  rw [absorbSeed_waits s (by simpa [hs] using hr)]
  simp only [hs, List.length_nil, Nat.sub_zero, List.append_nil, List.replicate_zero]
  rw [← hp, ← hs]

/-! An emit step leaves the phase and `REMAIN` (R73). -/

@[simp] theorem nextByte_phase (s : State) : (nextByte s).2.phase = s.phase := by
  obtain ⟨-, -, -, -, h, -⟩ := nextByte_frame s
  exact h

@[simp] theorem nextByte_remain (s : State) : (nextByte s).2.remain = s.remain := by
  obtain ⟨-, -, -, -, -, h, -⟩ := nextByte_frame s
  exact h

/-! A step is a run of granted moves (R61): how many, and that they make the step's hash exchanges. -/

/-- The granted moves of a SEED in ABSORB with `r` bytes to take and `k` on offer: the bytes, then the load and the response. -/
def absorbMoves (r k : Nat) : Nat := if r ≤ k then r + 2 else k

/-- The granted moves of a READ in EMIT with `r` bytes to produce: two a byte, then the end and the response. -/
def emitMoves (r : Nat) : Nat := 2 * r + 2

/-- The granted moves of a READ after its word is accepted, of a block seeded or not: only the response if it fails. -/
def readMoves (n : Nat) (seeded : Bool) : Nat := if seeded then emitMoves n else 1

/-- How many granted moves make up the step from a state. -/
def stepMoves (s : State) : Nat :=
  match s.phase with
  | .idle =>
    match s.cmdIn with
    | [] => 0
    | w :: _ =>
      match decode w with
      | .ok (.seed n) => absorbMoves n s.seedIn.length + 1
      | .ok (.read n) => readMoves n s.keyValid + 1
      | .error _ => 2
  | .absorb => absorbMoves s.remain s.seedIn.length
  | .emit _ none => emitMoves s.remain
  | .emit _ (some _) => emitMoves (s.remain - 1) + 1
  | .respond _ => 1

/-- The state and the hash exchanges that `k` granted moves from `s` lead to. -/
def RunsTo (k : Nat) (s t : State) (h : Option HashExchange) : Prop :=
  portRun k s = t ∧ portRunHashes k s = h.toList

theorem RunsTo.refl (s : State) : RunsTo 0 s s none := ⟨rfl, rfl⟩

/-- A move without hash exchange in front of a run. -/
theorem RunsTo.cons {k : Nat} {s s' t : State} {h : Option HashExchange} (hm : portStep .all s = s')
    (hh : portHash .all s = none) (hr : RunsTo k s' t h) : RunsTo (k + 1) s t h := by
  subst hm
  exact ⟨hr.1, by simp [portRunHashes, hh, hr.2]⟩

/-- A move that makes the one hash exchange, in front of a run without. -/
theorem RunsTo.cons_hash {k : Nat} {s s' t : State} {h : Option HashExchange} (hm : portStep .all s = s')
    (hh : portHash .all s = h) (hr : RunsTo k s' t none) : RunsTo (k + 1) s t h := by
  subst hm
  exact ⟨hr.1, by simp [portRunHashes, hh, hr.2]⟩

/-- From RESPOND one move sends the response. -/
theorem runsTo_respond {s : State} {w : RespWord} (hp : s.phase = .respond w) : RunsTo 1 s (sendResponse w s) none :=
  .cons (by simp [portStep, hp, Grant.all]) (portHash_eq_none (.inl (by simp [hp]))) (.refl _)

/-- The response word offered, one move ends the command. -/
theorem runsTo_offerResponse (c : Code) (n : Nat) (s : State) :
    RunsTo 1 (offerResponse c n s) (complete c n s) none :=
  runsTo_respond rfl

/-- From ABSORB the granted moves are the SEED with what is on offer. -/
theorem runsTo_absorb (s : State) (hp : s.phase = .absorb) :
    RunsTo (absorbMoves s.remain s.seedIn.length) s (absorbSeed s) (absorbHash s) := by
  induction hr : s.remain generalizing s with
  | zero =>
    have hload : portStep .all s = offerResponse .ok 0 (loadSeed s.hashMsg s) := by
      simp [portStep, hp, absorbMove, hr, Grant.all]
    have hend : absorbSeed s = complete .ok 0 (loadSeed s.hashMsg s) := by
      rw [absorbSeed_completes s (by omega), hr]
      simp [takeSeed, record, loadSeed, complete, sendResponse, recordCode, hr]
    have hmsg : portHash .all s = absorbHash s := by
      rw [absorbHash_some s (by omega)]
      simp [portHash, hp, hr, Grant.all]
    rw [hend]
    exact .cons_hash hload hmsg (runsTo_offerResponse .ok 0 (loadSeed s.hashMsg s))
  | succ r ih =>
    cases hs : s.seedIn with
    | nil =>
      rw [absorbSeed_of_none_offered s hp hs (by omega), absorbHash_none s (by simp [hs, hr])]
      exact .refl s
    | cons b bs =>
      have htake : portStep .all s = takeSeed 1 s := by simp [portStep, hp, absorbMove, hr, hs]
      have hnone : portHash .all s = none := portHash_eq_none (.inr (.inl (by omega)))
      obtain ⟨hend, hmsg⟩ := absorbSeed_takeSeed_one s (by omega) (by simp [hs])
      have hrest := ih (takeSeed 1 s) (by simpa using hp) (by simp [hr, hs])
      rw [hend, hmsg] at hrest
      have hcount : absorbMoves (r + 1) (b :: bs).length = absorbMoves r (takeSeed 1 s).seedIn.length + 1 := by
        simp only [absorbMoves, takeSeed_seedIn, hs, List.drop_succ_cons, List.drop_zero, List.length_cons]
        split <;> split <;> omega
      rw [hcount]
      exact .cons htake hnone hrest

/-- Two granted moves in EMIT are one emit step, with `REMAIN` counted down (R61, R73). -/
theorem portStep_emit_twice (s : State) (n : Nat) (hp : s.phase = .emit n none) (hr : 0 < s.remain) :
    portStep .all (portStep .all s) = { emitStep s with remain := s.remain - 1, phase := .emit n none } := by
  have hnext : portStep .all s = { (nextByte s).2 with phase := .emit n (some (nextByte s).1) } := by
    have : s.remain ≠ 0 := by omega
    simp [portStep, hp, emitMove, this, Grant.all]
  rw [hnext]
  simp [portStep, emitMove, Grant.all, takeOffered, record, emitStep]

/-- A READ in EMIT is one emit step and the rest of it (R70). -/
theorem emitRemaining_succ (s : State) (n r : Nat) (p : Phase) (hr : s.remain = r + 1) :
    emitRemaining n { emitStep s with remain := r, phase := p } = emitRemaining n s := by
  rw [emitRemaining, emitRemaining, hr, emitMany, emitMany_update]
  rfl

/-- From EMIT with no byte on offer the granted moves are the rest of the READ. -/
theorem runsTo_emit (s : State) (n : Nat) (hp : s.phase = .emit n none) :
    RunsTo (emitMoves s.remain) s (emitRemaining n s) none := by
  induction hr : s.remain generalizing s with
  | zero =>
    have hend : emitRemaining n s = complete .ok n s := by
      rw [emitRemaining, hr, emitMany, ← hr]
    rw [hend]
    exact .cons (by simp [portStep, hp, emitMove, hr]) (portHash_eq_none (.inl (by simp [hp])))
      (runsTo_offerResponse .ok n s)
  | succ r ih =>
    have hrest := ih { emitStep s with remain := r, phase := .emit n none } rfl rfl
    rw [emitRemaining_succ s n r _ hr] at hrest
    have htwo := portStep_emit_twice s n hp (by omega)
    rw [hr, Nat.add_sub_cancel] at htwo
    have hsecond : (portStep .all s).phase ≠ .absorb := by
      have : s.remain ≠ 0 := by omega
      simp [portStep, hp, emitMove, this, Grant.all]
    exact .cons rfl (portHash_eq_none (.inl (by simp [hp]))) (.cons htwo (portHash_eq_none (.inl hsecond)) hrest)

/-- From EMIT with a byte on offer the granted moves are that byte and the rest of the READ. -/
theorem runsTo_emit_offered (s : State) (n : Nat) (b : Byte) (hp : s.phase = .emit n (some b)) :
    RunsTo (emitMoves (s.remain - 1) + 1) s (emitRemaining n (takeOffered (some b) s)) none := by
  have hrest := runsTo_emit { takeOffered (some b) s with phase := .emit n none } n rfl
  rw [emitRemaining_phase] at hrest
  exact .cons (by simp [portStep, hp, emitMove, Grant.all]) (portHash_eq_none (.inl (by simp [hp]))) hrest

/-- Once a SEED word is accepted the granted moves are the SEED (R65). -/
theorem runsTo_seed (n : Nat) (s : State) :
    RunsTo (absorbMoves n s.seedIn.length) (beginSeed n s) (absorbSeed (startSeed n s)) (commandHash (.seed n) s) := by
  have h := runsTo_absorb (beginSeed n s) rfl
  have hend : absorbSeed (beginSeed n s) = absorbSeed (startSeed n s) := absorbSeed_phase _ _
  rw [hend] at h
  exact h

/-- Once a READ word is accepted the granted moves are the READ (R70). -/
theorem runsTo_read (n : Nat) (s : State) :
    ∃ t, execRead n s = .next t ∧ RunsTo (readMoves n s.keyValid) (beginRead n s) t none := by
  by_cases hv : s.keyValid = true
  · have h := runsTo_emit { s with remain := n, phase := .emit n none } n rfl
    have hend := emitRemaining_phase n { s with remain := n } (.emit n none)
    refine ⟨_, if_pos hv, ?_⟩
    simp only [readMoves, beginRead, hv, if_true]
    rw [← hv, ← hend]
    exact h
  · refine ⟨_, if_neg hv, ?_⟩
    simp only [readMoves, beginRead, hv]
    exact runsTo_offerResponse _ 0 s

/-- The hash exchange of a step that accepts a command is the command's (R59). -/
theorem stepHash_of_command {s : State} {w : CmdWord} {ws : List CmdWord} {i : Instr} (hp : s.phase = .idle)
    (hc : s.cmdIn = w :: ws) (hd : decode w = .ok i) :
    stepHash s = commandHash i { s with cmdIn := ws, trace := s.trace ++ [.cmd w] } := by
  simp only [stepHash, hp, acceptCommand_cons s w ws hc, hd]

/-- A step that accepts an illegal word makes none (R85). -/
theorem stepHash_of_illegal {s : State} {w : CmdWord} {ws : List CmdWord} {e : DecodeError} (hp : s.phase = .idle)
    (hc : s.cmdIn = w :: ws) (hd : decode w = .error e) : stepHash s = none := by
  simp only [stepHash, hp, acceptCommand_cons s w ws hc, hd]

/-- From IDLE with a word on offer the granted moves are the command. -/
theorem runsTo_idle_cons (s : State) (w : CmdWord) (ws : List CmdWord) (hp : s.phase = .idle) (hc : s.cmdIn = w :: ws) :
    ∃ t, step s = .next t ∧ RunsTo (stepMoves s) s t (stepHash s) := by
  have hstep := step_idle_cons s w ws hp hc
  have hmove := portStep_idle_cons .all s w ws hp hc
  have hnone : portHash .all s = none := portHash_eq_none (.inl (by simp [hp]))
  simp only [stepMoves, hp, hc]
  rcases hd : decode w with e | (n | n) <;> simp only [hd] at hstep hmove ⊢
  · rw [stepHash_of_illegal hp hc hd]
    exact ⟨_, hstep, .cons hmove hnone (runsTo_offerResponse _ 0 _)⟩
  · rw [stepHash_of_command hp hc hd]
    exact ⟨_, hstep, .cons hmove hnone (runsTo_seed n { s with cmdIn := ws, trace := s.trace ++ [.cmd w] })⟩
  · rw [stepHash_of_command hp hc hd]
    obtain ⟨t, ht, hrun⟩ := runsTo_read n { s with cmdIn := ws, trace := s.trace ++ [.cmd w] }
    exact ⟨t, hstep.trans ht, .cons hmove hnone hrun⟩

/-- Every step is a run of granted moves, as many as `stepMoves` says, with the step's hash exchange (R61, log 11). -/
theorem step_eq_portRun (s : State) :
    step s = .next (portRun (stepMoves s) s) ∧ portRunHashes (stepMoves s) s = (stepHash s).toList := by
  suffices h : ∃ t, step s = .next t ∧ RunsTo (stepMoves s) s t (stepHash s) by
    obtain ⟨t, hstep, rfl, hhash⟩ := h
    exact ⟨hstep, hhash⟩
  rcases hp : s.phase with _ | _ | ⟨n, _ | b⟩ | w
  · rcases hc : s.cmdIn with _ | ⟨w, ws⟩
    · refine ⟨s, (idle_nil .all s hp hc).1, ?_⟩
      simpa [stepMoves, stepHash, hp, hc, acceptCommand] using RunsTo.refl s
    · exact runsTo_idle_cons s w ws hp hc
  · refine ⟨_, by rw [step, hp], ?_⟩
    simpa [stepMoves, stepHash, finishCommand, hp] using runsTo_absorb s hp
  · refine ⟨_, by rw [step, hp], ?_⟩
    simpa [stepMoves, stepHash, finishCommand, hp, takeOffered] using runsTo_emit s n hp
  · refine ⟨_, by rw [step, hp], ?_⟩
    simpa [stepMoves, stepHash, finishCommand, hp] using runsTo_emit_offered s n b hp
  · refine ⟨_, by rw [step, hp], ?_⟩
    simpa [stepMoves, stepHash, finishCommand, hp] using runsTo_respond hp

/-- The seed of the last SEED after some hash exchanges, oldest first. -/
def seedAfterHashes (last : Option (List Byte)) (hs : List HashExchange) : Option (List Byte) :=
  hs.foldl (fun _ h => some h.message) last

/-- After one exchange at most. -/
theorem seedAfterHashes_toList (last : Option (List Byte)) (h : Option HashExchange) :
    seedAfterHashes last h.toList = (h.map (·.message)).or last := by
  cases h <;> rfl

/-- A property that every kind of move keeps holds after any number of granted moves. -/
theorem KeptByMoves.portRun {P : Option (List Byte) → State → Prop} (hP : KeptByMoves P) (k : Nat)
    (l : Option (List Byte)) (s : State) (h : P l s) :
    P (seedAfterHashes l (portRunHashes k s)) (Machine.portRun k s) := by
  induction k generalizing l s with
  | zero => exact h
  | succ k ih =>
    have hrest := ih _ _ (hP.portStep .all l s h)
    have hfirst : seedAfterInput l (.move .all) s = seedAfterHashes l (portHash .all s).toList :=
      (seedAfterHashes_toList l _).symm
    rw [hfirst, seedAfterHashes, seedAfterHashes, ← List.foldl_append] at hrest
    exact hrest

/-- A property that every kind of move keeps is kept by every step. -/
theorem KeptByMoves.step {P : Option (List Byte) → State → Prop} (hP : KeptByMoves P)
    {l : Option (List Byte)} {s t : State} (h : P l s) (hst : Machine.step s = .next t) : P (seedAfterStep l s) t := by
  obtain ⟨hrun, hhash⟩ := step_eq_portRun s
  have hend := hP.portRun (stepMoves s) l s h
  rw [hhash, seedAfterHashes_toList] at hend
  cases hst.symm.trans hrun
  exact hend

/-! The generator registers (R24). -/

/-- The invariant reads `KEY_VALID`, the generator registers and the number of refills, nothing else. -/
theorem RegistersInv.congr {l : Option (List Byte)} {s t : State} (h : RegistersInv l s)
    (hv : t.keyValid = s.keyValid) (hkey : t.key = s.key) (hctr : t.ctr = s.ctr) (hksb : t.ksb = s.ksb)
    (hcur : t.cursor = s.cursor) (href : (streamView t.trace).refills = (streamView s.trace).refills) :
    RegistersInv l t := by
  simpa only [RegistersInv, hv, hkey, hctr, hksb, hcur, href] using h

/-- A SEED establishes it, of its own seed (R65). -/
theorem registersInv_loadSeed (l : Option (List Byte)) (m : List Byte) (s : State) (hl : l = some m) :
    RegistersInv l (loadSeed m s) := by
  refine fun _ => ⟨?_, ?_, m, hl, rfl⟩
  · simp only [loadSeed_ctr, zeroBlock_eq, val_LE16, loadSeed_trace, streamView_concat, StreamView.add]
  · simp

/-- A refill counts itself in `CTR` and encrypts it into `KSB` (R72). -/
theorem RegistersInv.refill {l : Option (List Byte)} {s : State} (h : RegistersInv l s) :
    RegistersInv l (Machine.refill s) := by
  intro hv
  obtain ⟨hctr, -, hkey⟩ := h hv
  have hcount : (streamView (Machine.refill s).trace).refills = (streamView s.trace).refills + 1 := by
    simp only [refill_trace, streamView_concat, StreamView.add]
  refine ⟨?_, fun _ => ⟨by omega, rfl⟩, hkey⟩
  rw [hcount, refill_ctr, val_ctrInc, hctr, Nat.mod_add_mod]

/-- Reading a byte of a block not yet exhausted only advances the cursor (R73). -/
theorem RegistersInv.byteAt {l : Option (List Byte)} {s : State} (h : RegistersInv l s) (i : Fin 16)
    (hc : s.cursor.val < 16) : RegistersInv l (Machine.byteAt i s).2 := by
  intro hv
  obtain ⟨hctr, hksb, hkey⟩ := h hv
  exact ⟨hctr, fun _ => hksb hc, hkey⟩

/-- An emit step keeps it (R73). -/
theorem RegistersInv.nextByte {l : Option (List Byte)} {s : State} (h : RegistersInv l s) :
    RegistersInv l (Machine.nextByte s).2 := by
  by_cases hc : s.cursor.val < 16
  · rw [nextByte_of_lt s hc]
    exact h.byteAt _ hc
  · rw [nextByte_of_exhausted s hc]
    exact h.refill.byteAt 0 (by simp)

/-- Every kind of move keeps the invariants of R24: those of a SEED's load and of an emit step write the registers, the others
move nothing that counts. -/
theorem registersInv_keptByMoves : KeptByMoves RegistersInv where
  seed _ _ _ _ _ h _ _ _ := h.congr rfl rfl rfl rfl rfl (by simp [StreamView.add])
  read _ _ _ _ _ h _ _ _ _ := h.congr rfl rfl rfl rfl rfl (by simp [StreamView.add])
  error _ _ _ _ _ h _ _ := h.congr rfl rfl rfl rfl rfl (by simp [offerError_eq, StreamView.add])
  take _ _ _ _ h _ _ _ := h.congr rfl rfl rfl rfl rfl (by simp [StreamView.add])
  load _ s _ _ _ := (registersInv_loadSeed _ s.hashMsg s rfl).congr rfl rfl rfl rfl rfl rfl
  next _ _ _ h _ _ := h.nextByte.congr rfl rfl rfl rfl rfl rfl
  out _ _ _ _ h _ := h.congr rfl rfl rfl rfl rfl (by simp [StreamView.add])
  done _ _ _ h _ _ := h.congr rfl rfl rfl rfl rfl rfl
  send _ _ _ h _ := h.congr rfl rfl rfl rfl rfl (by simp [StreamView.add])

/-- Settles O34: every kind of move keeps the invariants, so every step does; the host's offers change no register, and reset
unseeds the block. -/
theorem generatorRegistersInvariant : Obligations.GeneratorRegistersInvariant := by
  refine ⟨fun last s t h hst => registersInv_keptByMoves.step h hst, fun last s x h => ?_⟩
  cases x with
  | move g => exact registersInv_keptByMoves.portStep g last s h
  | offerCommand w => exact h.congr rfl rfl rfl rfl rfl rfl
  | offerSeedByte b => exact h.congr rfl rfl rfl rfl rfl rfl
  | reset => exact fun hv => Bool.noConfusion hv

/-! What reset leaves unspecified (R34): every kind of move keeps two blocks indistinguishable. -/

theorem Indistinguishable.refl (s : State) : Indistinguishable s s :=
  ⟨rfl, rfl, rfl, rfl, rfl, rfl, rfl, rfl, fun _ _ => rfl, fun _ => ⟨rfl, rfl, rfl, fun _ => rfl⟩⟩

/-- Accepting the word both blocks are offered. -/
theorem Indistinguishable.accept {s t : State} (h : Indistinguishable s t) (w : CmdWord) (ws : List CmdWord) :
    Indistinguishable { s with cmdIn := ws, trace := s.trace ++ [.cmd w] }
      { t with cmdIn := ws, trace := t.trace ++ [.cmd w] } :=
  { h with cmdIn := rfl, trace := congrArg (· ++ [.cmd w]) h.trace }

/-- A SEED begins: `REMAIN` is written (R61). -/
theorem Indistinguishable.beginSeed {s t : State} (h : Indistinguishable s t) (n : Nat) :
    Indistinguishable (Machine.beginSeed n s) (Machine.beginSeed n t) :=
  { h with
    phase := rfl, hashMsg := rfl, remain := fun _ _ => rfl
    generator := fun hr => h.generator (.inl (by simpa [Machine.beginSeed] using hr)) }

/-- A response offered (R61). -/
theorem Indistinguishable.offerResponse {s t : State} (h : Indistinguishable s t) (c : Code) (n : Nat) :
    Indistinguishable (Machine.offerResponse c n s) (Machine.offerResponse c n t) :=
  { h with
    lastCode := rfl, errSticky := by simp [h.errSticky], phase := by simp [h.keyValid]
    remain := fun hr => absurd rfl (hr _)
    generator := fun hr => h.generator (.inl (by simpa using hr)) }

/-- The response taken (R61). -/
theorem Indistinguishable.sendResponse {s t : State} (h : Indistinguishable s t) (w : RespWord) :
    Indistinguishable (Machine.sendResponse w s) (Machine.sendResponse w t) :=
  { h with
    phase := rfl, trace := by simp [h.trace], remain := fun _ hr => absurd rfl hr
    generator := fun hr => h.generator (.inl (by simpa using hr)) }

/-- A READ begins, of two seeded blocks or of two unseeded ones (R61, R84). -/
theorem Indistinguishable.beginRead {s t : State} (h : Indistinguishable s t) (n : Nat) :
    Indistinguishable (Machine.beginRead n s) (Machine.beginRead n t) := by
  by_cases hv : s.keyValid = true
  · rw [Machine.beginRead, Machine.beginRead, if_pos hv, if_pos (h.keyValid ▸ hv)]
    exact { h with phase := rfl, remain := fun _ _ => rfl, generator := fun _ => h.generator (.inl hv) }
  · rw [Machine.beginRead, Machine.beginRead, if_neg hv, if_neg (h.keyValid ▸ hv)]
    exact h.offerResponse _ 0

/-- IDLE (R61). -/
theorem Indistinguishable.idleMove {s t : State} (h : Indistinguishable s t) :
    Indistinguishable (Machine.idleMove s) (Machine.idleMove t) := by
  rcases hc : s.cmdIn with _ | ⟨w, ws⟩
  · simpa [Machine.idleMove, acceptCommand, hc, h.cmdIn ▸ hc] using h
  · have ha := h.accept w ws
    simp only [Machine.idleMove, acceptCommand_cons s w ws hc, acceptCommand_cons t w ws (h.cmdIn ▸ hc)]
    rcases decode w with e | (n | n)
    · exact ha.offerResponse _ 0
    · exact ha.beginSeed n
    · exact ha.beginRead n

/-- Seed bytes taken in ABSORB (R61). -/
theorem Indistinguishable.takeSeed {s t : State} (h : Indistinguishable s t) (k : Nat) :
    Indistinguishable (Machine.takeSeed k s) (Machine.takeSeed k t) :=
  { h with
    seedIn := by simp [h.seedIn], hashMsg := by simp [h.hashMsg, h.seedIn], trace := by simp [h.trace, h.seedIn]
    remain := fun hw hi => by simp [h.remain hw hi, h.seedIn] }

/-- The load of a SEED writes all but `KSB`, which `CURSOR = 16` then makes unreadable (R65, R69). -/
theorem Indistinguishable.loadSeed {s t : State} (h : Indistinguishable s t) (m : List Byte) :
    Indistinguishable (Machine.loadSeed m s) (Machine.loadSeed m t) :=
  { h with
    keyValid := rfl, hashMsg := rfl, trace := by simp [h.trace]
    generator := fun _ => ⟨rfl, rfl, rfl, fun hc => absurd rfl hc⟩ }

/-- ABSORB (R61). -/
theorem Indistinguishable.absorbMove {s t : State} (h : Indistinguishable s t) (g : Grant) (hp : s.phase = .absorb) :
    Indistinguishable (Machine.absorbMove g s) (Machine.absorbMove g t) := by
  have hrem : s.remain = t.remain := h.remain (by simp [hp]) (by simp [hp])
  unfold Machine.absorbMove
  rw [← hrem, ← h.hashMsg, ← h.seedIn]
  split
  · split
    · exact (h.loadSeed _).offerResponse .ok 0
    · exact h
  · split
    · exact h
    · exact h.takeSeed 1

/-- The byte on offer taken (R61). -/
theorem Indistinguishable.takeOffered {s t : State} (h : Indistinguishable s t) (b : Byte) :
    Indistinguishable (Machine.takeOffered (some b) s) (Machine.takeOffered (some b) t) :=
  { h with
    trace := congrArg (· ++ [Event.out b]) h.trace
    remain := fun hw hi => congrArg (· - 1) (h.remain hw hi) }

/-- EMIT goes on with another byte on offer, or with none (R61). -/
theorem Indistinguishable.emitPhase {s t : State} (h : Indistinguishable s t) {n : Nat} {o : Option Byte}
    (hp : s.phase = .emit n o) (o' : Option Byte) :
    Indistinguishable { s with phase := .emit n o' } { t with phase := .emit n o' } :=
  { h with
    phase := rfl, remain := fun _ _ => h.remain (by simp [hp]) (by simp [hp])
    generator := fun _ => h.generator (.inr ⟨n, o, hp⟩) }

/-- After an emit step of a READ both blocks have emitted the same byte, and `KSB` is the same (R72, R73). -/
theorem Indistinguishable.nextByte {s t : State} (h : Indistinguishable s t) (n : Nat) (hp : s.phase = .emit n none) :
    (Machine.nextByte s).1 = (Machine.nextByte t).1 ∧
    Indistinguishable (Machine.nextByte s).2 (Machine.nextByte t).2 := by
  obtain ⟨hkey, hctr, hcur, hksb⟩ := h.generator (.inr ⟨n, _, hp⟩)
  by_cases hc : s.cursor.val < 16
  · have hk : s.ksb = t.ksb := hksb fun h16 => by simp [h16] at hc
    rw [nextByte_of_lt s hc, nextByte_of_lt t (hcur ▸ hc)]
    refine ⟨by simp [hk, hcur], ?_⟩
    exact { h with generator := fun _ => ⟨hkey, hctr, by simp [hcur], fun _ => hk⟩ }
  · rw [nextByte_of_exhausted s hc, nextByte_of_exhausted t (hcur ▸ hc)]
    refine ⟨by simp [hkey, hctr], ?_⟩
    exact { h with
      trace := by simp [h.trace, hkey, hctr]
      generator := fun _ => ⟨hkey, by simp [hctr], rfl, fun _ => by simp [hkey, hctr]⟩ }

/-- EMIT (R61). -/
theorem Indistinguishable.emitMove {s t : State} (h : Indistinguishable s t) (g : Grant) (n : Nat) (o : Option Byte)
    (hp : s.phase = .emit n o) : Indistinguishable (Machine.emitMove g n o s) (Machine.emitMove g n o t) := by
  have hrem : s.remain = t.remain := h.remain (by simp [hp]) (by simp [hp])
  obtain ⟨-, -, hcur, -⟩ := h.generator (.inr ⟨n, o, hp⟩)
  cases o with
  | some b =>
    simp only [Machine.emitMove]
    split
    · exact (h.takeOffered b).emitPhase hp none
    · exact h
  | none =>
    simp only [Machine.emitMove, ← hrem, ← hcur]
    split
    · exact h.offerResponse .ok n
    · split
      · exact h
      · obtain ⟨hb, hn⟩ := h.nextByte n hp
        rw [← hb]
        exact hn.emitPhase ((nextByte_phase s).trans hp) _

/-- Every move at the ports. -/
theorem Indistinguishable.portStep {s t : State} (h : Indistinguishable s t) (g : Grant) :
    Indistinguishable (Machine.portStep g s) (Machine.portStep g t) := by
  unfold Machine.portStep
  rw [← h.phase]
  rcases hp : s.phase with _ | _ | ⟨n, o⟩ | w
  · exact h.idleMove
  · exact h.absorbMove g hp
  · exact h.emitMove g n o hp
  · simp only
    split
    · exact h.sendResponse w
    · exact h

theorem Indistinguishable.portRun {s t : State} (h : Indistinguishable s t) (k : Nat) :
    Indistinguishable (Machine.portRun k s) (Machine.portRun k t) := by
  induction k generalizing s t with
  | zero => exact h
  | succ k ih => exact ih (h.portStep .all)

/-- The steps of both blocks are as many moves. -/
theorem Indistinguishable.stepMoves {s t : State} (h : Indistinguishable s t) :
    Machine.stepMoves s = Machine.stepMoves t := by
  unfold Machine.stepMoves
  rw [← h.phase, ← h.cmdIn, ← h.seedIn, ← h.keyValid]
  rcases hp : s.phase with _ | _ | ⟨n, _ | b⟩ | w
  · rfl
  · simp only [h.remain (by simp [hp]) (by simp [hp])]
  · simp only [h.remain (by simp [hp]) (by simp [hp])]
  · simp only [h.remain (by simp [hp]) (by simp [hp])]
  · rfl

/-- What the host sees of both blocks is the same (R17). -/
theorem Indistinguishable.observe {s t : State} (h : Indistinguishable s t) : s.observe = t.observe := by
  simp only [State.observe, State.status, h.trace, h.lastCode, h.errSticky, h.keyValid]

/-- Every port input. -/
theorem Indistinguishable.portInput {s t : State} (h : Indistinguishable s t) (x : PortInput) :
    Indistinguishable (Machine.portInput x s) (Machine.portInput x t) := by
  cases x with
  | move g => exact h.portStep g
  | offerCommand w => exact { h with cmdIn := congrArg (· ++ [w]) h.cmdIn }
  | offerSeedByte b => exact { h with seedIn := congrArg (· ++ [b]) h.seedIn }
  | reset =>
    have hr : resetBlock s = resetBlock t := by simp only [resetBlock, h.cmdIn, h.seedIn, h.trace]
    rw [Machine.portInput, Machine.portInput, hr]
    exact .refl _

/-- Settles O42: the moves keep blocks indistinguishable, and a step is a number of moves that both blocks share. -/
theorem unspecifiedResetValuesAreUnobservable : Obligations.UnspecifiedResetValuesAreUnobservable := by
  refine ⟨⟨rfl, rfl, rfl, rfl⟩, fun key ctr ksb cursor remain => ?_, fun _ _ h => h.observe, fun s t h => ?_,
    fun _ _ x h => h.portInput x⟩
  · exact { Indistinguishable.refl State.reset with
      remain := fun _ hi => absurd rfl hi
      generator := fun hr => by simp [State.reset] at hr }
  · exact ⟨_, _, (step_eq_portRun s).1, h.stepMoves ▸ (step_eq_portRun t).1, h.portRun _⟩

end Sys2Proof.Machine
end

section
/-! PROOFS. The family of 20_memory: byte strings as numbers and as port vectors. -/

namespace Sys2Proof.Machine

/-- The number of a byte list is its base-256 sum (R15 `val`, R36). -/
theorem leVal_eq_sum (bs : List Byte) : leVal bs = ∑ i : Fin bs.length, bs[i].toNat * 256 ^ i.val := by
  induction bs with
  | nil => rfl
  | cons b bs ih =>
    have htail : ∑ i : Fin bs.length, bs[i].toNat * 256 ^ (i.val + 1) = 256 * leVal bs := by
      rw [ih, Finset.mul_sum]
      exact Finset.sum_congr rfl fun i _ => by ring
    simpa [leVal, Fin.sum_univ_succ] using htail.symm

theorem leVal_toList_eq_sum {n : Nat} (v : Vector Byte n) :
    leVal v.toList = ∑ i : Fin n, v[i].toNat * 256 ^ i.val := by
  rw [leVal_eq_sum]
  exact Fintype.sum_equiv (finCongr v.length_toList) _ _ fun i => by simp

/-- Settles O17: the sum by induction on the bytes, the increment by `val_ctrInc`. -/
theorem counterIsLittleEndian : Obligations.CounterIsLittleEndian :=
  fun ctr => ⟨leVal_toList_eq_sum ctr, val_ctrInc ctr⟩

/-- A vector of bits that stands for a byte string's number holds byte `i` at bits `[8i+7:8i]` (R41): shifting right by `8i`
is dividing by `256^i`. -/
theorem extractLsb'_eq_getElem {w : Nat} (v : BitVec w) (bs : List Byte) (hv : v.toNat = leVal bs) (i : Nat)
    (h : i < bs.length) : v.extractLsb' (8 * i) 8 = bs[i] := by
  apply BitVec.eq_of_toNat_eq
  rw [BitVec.extractLsb'_toNat, hv, Nat.shiftRight_eq_div_pow, pow_mul]
  exact leVal_digit bs i h

/-- Settles O21: each port vector stands for its byte string's number. -/
theorem portVectorByteLayout : Obligations.PortVectorByteLayout :=
  ⟨fun k i => extractLsb'_eq_getElem _ k.toList (wireKey_toNat k) i (by simp),
    fun b i => extractLsb'_eq_getElem _ b.toList (wireBlock_toNat b) i (by simp)⟩

end Sys2Proof.Machine
end

section
/-! PROOFS. The family of 30_encoding: the verdict of every command word, and the expansion of a long READ. -/

namespace Sys2Proof

open Laws.TableRow (mask matchOf)

/-! The decoder by mask, value and length (R50, R51, R52). -/

/-- The opcode of a command (R50). -/
def Instr.opcode : Instr → BitVec 4
  | .seed _ => opcSeed
  | .read _ => opcRead

theorem matchOf_eq_opcode (i : Instr) : matchOf i = i.opcode.setWidth 64 := by
  cases i <;> rfl

/-- The low byte of a word is `OPC` exactly if `RSV` is 0 (R49). -/
theorem and_mask_eq_iff (w : CmdWord) (o : BitVec 4) :
    w &&& mask = o.setWidth 64 ↔ rsvField w = 0#4 ∧ opcField w = o := by
  have hlow : (w &&& mask).toNat = w.toNat % 256 := by
    rw [BitVec.toNat_and]
    exact Nat.and_two_pow_sub_one_eq_mod w.toNat 8
  have ho := o.isLt
  simp only [← BitVec.toNat_inj, hlow, rsvField, opcField, BitVec.extractLsb'_toNat, BitVec.toNat_setWidth,
    BitVec.toNat_ofNat, Nat.shiftRight_eq_div_pow]
  omega

/-- `LEN` is the word shifted right by its other fields (R49). -/
theorem lenField_toNat (w : CmdWord) : (lenField w).toNat = (w >>> 8).toNat := by
  have hw := w.isLt
  rw [lenField, BitVec.extractLsb'_toNat, BitVec.toNat_ushiftRight, Nat.shiftRight_eq_div_pow]
  omega

/-- The words that decode to a command, by their fields (R50, R51). -/
theorem decode_eq_ok_iff (w : CmdWord) (i : Instr) :
    decode w = .ok i ↔ (rsvField w = 0#4 ∧ opcField w = i.opcode) ∧ i.len = (lenField w).toNat := by
  have hne : opcSeed ≠ opcRead := by decide
  unfold decode
  split
  case isTrue hrsv => simp [hrsv]
  case isFalse hrsv =>
    rw [not_not] at hrsv
    split
    case isTrue hopc => cases i <;> simp [hrsv, hopc, hne, Instr.opcode, Instr.len, eq_comm]
    case isFalse hseed =>
      split
      case isTrue hopc => cases i <;> simp [hrsv, hopc, hne.symm, Instr.opcode, Instr.len, eq_comm]
      case isFalse hread => cases i <;> simp [hseed, hread, Instr.opcode]

/-- The words that decode to a command, by mask and value (R50). -/
theorem decode_eq_ok_iff_mask (w : CmdWord) (i : Instr) :
    decode w = .ok i ↔ w &&& mask = matchOf i ∧ i.len = (w >>> 8).toNat := by
  rw [decode_eq_ok_iff, matchOf_eq_opcode, and_mask_eq_iff, lenField_toNat]

/-- The illegal words (R52). -/
theorem decode_eq_error_iff (w : CmdWord) :
    (∃ e, decode w = .error e) ↔ (opcField w ≠ opcSeed ∧ opcField w ≠ opcRead) ∨ rsvField w ≠ 0#4 := by
  unfold decode
  split
  case isTrue hrsv => simp [hrsv]
  case isFalse hrsv =>
    split
    case isTrue hopc => simpa [hopc] using hrsv
    case isFalse hseed =>
      split
      case isTrue hopc => simpa [hopc] using hrsv
      case isFalse hread => simp [hseed, hread]

/-- Settles O4: mask and value say that `RSV` is 0 and which opcode `OPC` is, and the shift reads `LEN`. -/
theorem decodeVerdictOfEveryWord : Obligations.DecodeVerdictOfEveryWord := fun w =>
  ⟨fun n => decode_eq_ok_iff_mask w (.seed n), fun n => decode_eq_ok_iff_mask w (.read n), decode_eq_error_iff w⟩

end Sys2Proof

namespace Sys2Proof.Machine

/-! Several READs deliver the stream of one (R78). -/

/-- What a READ reads and advances: the generator registers, and the bytes emitted so far. -/
structure Generator where
  key : Key
  ctr : Block
  ksb : Block
  cursor : Fin 17
  out : List Byte

def State.generator (s : State) : Generator := ⟨s.key, s.ctr, s.ksb, s.cursor, outBytes s.trace⟩

/-- An emit step takes equal generators to equal generators (R73). -/
theorem emitStep_generator {s t : State} (h : s.generator = t.generator) :
    (emitStep s).generator = (emitStep t).generator := by
  simp only [State.generator, Generator.mk.injEq] at h ⊢
  obtain ⟨hkey, hctr, hksb, hcur, hout⟩ := h
  simp only [emitStep_eq]
  by_cases hc : s.cursor.val < 16
  · simp [nextByte_of_lt s hc, nextByte_of_lt t (hcur ▸ hc), hkey, hctr, hksb, hcur, hout]
  · simp [nextByte_of_exhausted s hc, nextByte_of_exhausted t (hcur ▸ hc), hkey, hctr, hout]

theorem emitMany_generator (n : Nat) {s t : State} (h : s.generator = t.generator) :
    (emitMany n s).generator = (emitMany n t).generator := by
  induction n generalizing s t with
  | zero => exact h
  | succ n ih => exact ih (emitStep_generator h)

/-- Emit steps send no response (R70). -/
theorem emitMany_responses (n : Nat) (s : State) : responses (emitMany n s).trace = responses s.trace := by
  obtain ⟨es, h⟩ := emitMany_spec n s
  obtain ⟨hresp, -⟩ := emissions_elsewhere h.kinds
  simp [h.trace, hresp]

/-- From `s` to the seeded `u`, `total` bytes were emitted and `count` responses sent (R70). -/
structure ReadsTo (total count : Nat) (s u : State) : Prop where
  keyValid : u.keyValid = true
  generator : u.generator = (emitMany total s).generator
  responses : (responses u.trace).length = (responses s.trace).length + count

/-- READs one after another add up. -/
theorem ReadsTo.trans {m n a b : Nat} {s t u : State} (h : ReadsTo m a s t) (h' : ReadsTo n b t u) :
    ReadsTo (m + n) (a + b) s u where
  keyValid := h'.keyValid
  generator := by rw [h'.generator, emitMany_add, emitMany_generator n h.generator]
  responses := by rw [h'.responses, h.responses, Nat.add_assoc]

/-- One READ of a seeded block (R70). -/
theorem read_readsTo (n : Nat) (s : State) (h : s.keyValid = true) :
    ∃ t, exec (.read n) s = .next t ∧ ReadsTo n 1 s t := by
  refine ⟨_, execRead_seeded n s h, ?_, ?_, ?_⟩
  · simp [emitMany_frame, h]
  · simp [State.generator]
  · simp [emitMany_responses]

/-- READs of a seeded block emit what one READ of their total length does, with a response each (R78). -/
theorem runReads_readsTo (ns : List Nat) (s : State) (h : s.keyValid = true) :
    ∃ u, runReads ns s = .next u ∧ ReadsTo ns.sum ns.length s u := by
  induction ns generalizing s with
  | nil => exact ⟨s, rfl, h, rfl, rfl⟩
  | cons n ns ih =>
    obtain ⟨t, hread, ht⟩ := read_readsTo n s h
    obtain ⟨u, hrun, hu⟩ := ih t ht.keyValid
    refine ⟨u, by rw [runReads, hread]; exact hrun, ?_⟩
    rw [List.sum_cons, List.length_cons, Nat.add_comm ns.length 1]
    exact ht.trans hu

/-! The expansion of a READ of any length (R64). -/

theorem lt_two_pow_iff_le_maxLen (n : Nat) : n < 2 ^ 56 ↔ n ≤ maxLen := Nat.lt_succ_iff (n := maxLen)

/-- The READ of the rest, left out when nothing is left, has the rest's length. -/
theorem sum_rest (r : Nat) : (if 0 < r then [r] else []).sum = r := by
  split
  case isTrue => exact List.sum_singleton
  case isFalse h => exact (Nat.eq_zero_of_not_pos h).symm

/-- The READs that `READ n` stands for have `n` bytes together. -/
theorem expandRead_sum (n : Nat) : (expandRead n).sum = n := by
  unfold expandRead
  split
  case isTrue => exact List.sum_singleton
  case isFalse =>
    rw [List.sum_append, List.sum_replicate, smul_eq_mul, sum_rest]
    exact Nat.add_sub_cancel' (Nat.div_mul_le_self n maxLen)

/-- Each of them is encodable (R51): the rest is less than the greatest length. -/
theorem expandRead_wellFormed {n k : Nat} (hk : k ∈ expandRead n) : (Instr.read k).WellFormed := by
  refine (lt_two_pow_iff_le_maxLen k).mpr ?_
  unfold expandRead at hk
  split at hk
  case isTrue hn => exact List.eq_of_mem_singleton hk ▸ hn
  case isFalse =>
    rw [← Nat.mod_eq_sub_div_mul] at hk
    rcases List.mem_append.mp hk with hq | hr
    · exact (List.eq_of_mem_replicate hq).le
    · have hrest : k = n % maxLen := by
        split at hr
        case isTrue => exact List.eq_of_mem_singleton hr
        case isFalse => cases hr
      rw [hrest]
      exact (Nat.mod_lt n (by decide)).le

/-- Settles O55: the expansion has the same total length, so its READs and the one READ make the same emit steps. -/
theorem longReadExpandsToReads : Obligations.LongReadExpandsToReads := by
  intro n hn
  have hlong : ¬ n ≤ maxLen := fun hle => hn.not_gt ((lt_two_pow_iff_le_maxLen n).mpr hle)
  refine ⟨⟨_, _, rfl, rfl, by rw [expandRead, if_neg hlong]; rfl⟩, expandRead_sum n, fun _ => expandRead_wellFormed,
    fun s hv => ?_⟩
  obtain ⟨t, hread, ht⟩ := read_readsTo n s hv
  obtain ⟨u, hruns, hu⟩ := runReads_readsTo (expandRead n) s hv
  rw [expandRead_sum] at hu
  have hsame : u.generator = t.generator := hu.generator.trans ht.generator.symm
  simp only [State.generator, Generator.mk.injEq] at hsame
  obtain ⟨hkey, hctr, hksb, hcur, hout⟩ := hsame
  exact ⟨t, u, hread, hruns, hout, hkey, hctr, hksb, hcur, hu.responses⟩

end Sys2Proof.Machine
end

section
/-! PROOFS. The family of 40_seed: key derivation, the whole effect of a SEED, and the READs after it. -/

namespace Sys2Proof.Machine

/-! Key derivation (R67). -/

theorem perturb_getElem_perturbIndex (d : Key) :
    (perturb d)[Config.perturbIndex] = d[Config.perturbIndex] + 1#8 := by
  simp [perturb]

theorem perturb_getElem_of_ne (d : Key) {i : Fin 32} (h : i ≠ Config.perturbIndex) : (perturb d)[i] = d[i] :=
  Vector.getElem_set_ne _ _ fun hi => h (Fin.ext hi.symm)

/-- Byte `P` tells a digest from its perturbed form: no byte is its own successor modulo 256. -/
theorem perturb_ne_self (d : Key) : perturb d ≠ d := by
  intro h
  have hbyte : d[Config.perturbIndex] + 1#8 = d[Config.perturbIndex] := by
    rw [← perturb_getElem_perturbIndex, h]
  simp at hbyte

/-- Settles O16: byte `P` is incremented, so the two wrapping cases are sums of bytes, and it is never itself again. -/
theorem perturbIncrementsOneByte : Obligations.PerturbIncrementsOneByte := fun d =>
  ⟨perturb_getElem_perturbIndex d, fun _ => perturb_getElem_of_ne d,
    fun h => by rw [perturb_getElem_perturbIndex, h]; rfl,
    fun h => by rw [perturb_getElem_perturbIndex, h]; rfl,
    perturb_ne_self d⟩

/-! The response of a SEED (R54, R68). -/

/-- CODE 0, SEEDED 1, COUNT 0. -/
theorem responseWord_ok_seeded_zero : responseWord .ok true 0 = 0x10#64 := by decide

@[simp] theorem responses_afterSeed (n : Nat) (k : Key) (rest : List Byte) (s : State) :
    responses (afterSeed n k rest s).trace = responses s.trace ++ [responseWord .ok true 0] := by
  simp [afterSeed]

@[simp] theorem outBytes_afterSeed (n : Nat) (k : Key) (rest : List Byte) (s : State) :
    outBytes (afterSeed n k rest s).trace = outBytes s.trace := by
  simp [afterSeed]

/-- Settles O9: the whole effect is `afterSeed`, and the SEED just begun has its message. -/
theorem seedCompletes : Obligations.SeedCompletes := by
  intro n s h
  refine ⟨?_, absorbHash_some (startSeed n s) h⟩
  rw [← responseWord_ok_seeded_zero]
  exact execSeed_eq_afterSeed n s h

/-- Settles O14: the step ends in `afterSeed`, a seeded block, and every READ of a seeded block succeeds. -/
theorem seedNeverFails : Obligations.SeedNeverFails := by
  intro s w ws n hp hc hd hn
  have hstep : step s = .next (afterSeed n (deriveKey (s.seedIn.take n)) (s.seedIn.drop n)
      { s with cmdIn := ws, trace := s.trace ++ [.cmd w] }) := by
    rw [step_idle_cons s w ws hp hc, hd]
    exact execSeed_eq_afterSeed n _ hn
  obtain ⟨hcode, hseeded, -⟩ := fields_of_responseWord .ok true 0
  refine ⟨_, _, hstep, rfl, by simp, hcode, hseeded, fun k => ⟨_, execRead_seeded k _ rfl, rfl⟩⟩

/-! What READs emit (R70, R77). -/

/-- READs emit the bytes that `readByte` names, in order, whatever the lengths they are cut into. -/
theorem ReadsTo.outBytes_eq {total count : Nat} {s u : State} (h : ReadsTo total count s u) :
    outBytes u.trace = outBytes s.trace ++ (List.range total).map (readByte s) := by
  obtain ⟨es, hes⟩ := emitMany_spec total s
  calc outBytes u.trace = outBytes (emitMany total s).trace := congrArg Generator.out h.generator
    _ = outBytes s.trace ++ (List.range total).map (readByte s) := by rw [hes.trace, outBytes_append, hes.out]

/-- After a SEED the next bytes are the keystream of its key: `CURSOR = 16` hides the old `KSB`, and `CTR` is 0 (R65, R77). -/
theorem readByte_afterSeed (n : Nat) (k : Key) (rest : List Byte) (s : State) (j : Nat) :
    readByte (afterSeed n k rest s) j = keystreamByte k j := by
  simp [readByte, afterSeed, keystreamByte, zeroBlock_eq, val_LE16]

/-- A SEED with its seed `m` on offer, and READs of any lengths after it: they emit the keystream of `DeriveKey(m)` (R66, R77). -/
theorem seed_then_reads_emit_keystream (s : State) (m rest : List Byte) (ns : List Nat) (hs : s.seedIn = m ++ rest) :
    exec (.seed m.length) s = .next (afterSeed m.length (deriveKey m) rest s) ∧
    ∃ u, runReads ns (afterSeed m.length (deriveKey m) rest s) = .next u ∧
      outBytes u.trace = outBytes s.trace ++ keystream (deriveKey m) ns.sum := by
  have hseed := execSeed_eq_afterSeed m.length s (by simp [hs])
  rw [hs, List.take_left, List.drop_left] at hseed
  obtain ⟨u, hruns, hu⟩ := runReads_readsTo ns (afterSeed m.length (deriveKey m) rest s) rfl
  refine ⟨hseed, u, hruns, ?_⟩
  rw [hu.outBytes_eq, outBytes_afterSeed, keystream]
  exact congrArg _ (List.map_congr_left fun j _ => readByte_afterSeed _ _ _ _ j)

/-- Settles O15: neither the registers of `afterSeed` nor the keystream of its key depend on the prior state. -/
theorem reseedDiscardsThePriorState : Obligations.ReseedDiscardsThePriorState := by
  intro s₁ s₂ m rest₁ rest₂ ns hs₁ hs₂
  obtain ⟨hseed₁, u₁, hruns₁, hout₁⟩ := seed_then_reads_emit_keystream s₁ m rest₁ ns hs₁
  obtain ⟨hseed₂, u₂, hruns₂, hout₂⟩ := seed_then_reads_emit_keystream s₂ m rest₂ ns hs₂
  exact ⟨_, _, u₁, u₂, keystream (deriveKey m) ns.sum, hseed₁, hseed₂, rfl, rfl, rfl, rfl, rfl, rfl, rfl,
    hruns₁, hruns₂, hout₁, hout₂⟩

end Sys2Proof.Machine
end

section
/-! PROOFS. The family of 41_read: the keystream formula, the counter, and what a READ emits and asks. -/

namespace Sys2Proof.Machine

/-! The keystream formula (R77). -/

/-- The generator registers after `t` bytes since the last SEED (R77). -/
structure StreamRegisters (t : Nat) (s : State) : Prop where
  ctr : s.ctr = LE16 ((t + 15) / 16)
  fresh : t = 0 → s.cursor = 16
  cursor : 0 < t → s.cursor.val = t - 16 * ((t + 15) / 16 - 1)
  ksb : 0 < t → s.ksb = keyBlock s.key ((t + 15) / 16)

/-- The invariant of R77 by its parts: the seed, the bytes, the registers. -/
theorem keystreamInv_iff (l : Option (List Byte)) (s : State) :
    KeystreamInv l s ↔ (s.keyValid = true →
      (∃ m, l = some m ∧ s.key = deriveKey m) ∧
      s.produced = keystream s.key s.produced.length ∧ StreamRegisters s.produced.length s) := by
  refine imp_congr_right fun _ => and_congr_right fun _ => and_congr_right fun _ => ?_
  exact ⟨fun ⟨hctr, hfresh, hread⟩ => ⟨hctr, hfresh, fun h => (hread h).1, fun h => (hread h).2⟩,
    fun h => ⟨h.ctr, h.fresh, fun ht => ⟨h.cursor ht, h.ksb ht⟩⟩⟩

theorem keystream_succ (key : Key) (t : Nat) : keystream key (t + 1) = keystream key t ++ [keystreamByte key t] := by
  simp [keystream, List.range_succ]

/-- Unread bytes are left in the block exactly inside a block of the stream, and `CURSOR` is the place in it. -/
theorem StreamRegisters.cursor_of_lt {t : Nat} {s : State} (h : StreamRegisters t s) (hc : s.cursor.val < 16) :
    0 < t ∧ s.cursor.val = t % 16 ∧ (t + 15) / 16 = t / 16 + 1 ∧ (t + 1 + 15) / 16 = t / 16 + 1 := by
  have ht : 0 < t := Nat.pos_of_ne_zero fun h0 => by simp [h.fresh h0] at hc
  have := h.cursor ht
  omega

/-- The block is exhausted exactly at a block boundary of the stream. -/
theorem StreamRegisters.boundary_of_exhausted {t : Nat} {s : State} (h : StreamRegisters t s) (hc : ¬ s.cursor.val < 16) :
    t % 16 = 0 := by
  rcases Nat.eq_zero_or_pos t with rfl | ht
  · rfl
  · have := h.cursor ht
    omega

/-- An emit step produces the next byte of the keystream and advances the registers by one byte (R73, R77). -/
theorem StreamRegisters.nextByte {t : Nat} {s : State} (h : StreamRegisters t s) :
    (Machine.nextByte s).1 = keystreamByte s.key t ∧ StreamRegisters (t + 1) (Machine.nextByte s).2 := by
  by_cases hc : s.cursor.val < 16
  · obtain ⟨ht, hcur, hblock, hblock'⟩ := h.cursor_of_lt hc
    have hksb : s.ksb = keyBlock s.key (t / 16 + 1) := hblock ▸ h.ksb ht
    rw [nextByte_of_lt s hc]
    refine ⟨?_, ?_, by simp, fun _ => ?_, fun _ => ?_⟩
    · simp [keystreamByte, hksb, hcur]
    · rw [byteAt_ctr, h.ctr, hblock, hblock']
    · simp only [byteAt_cursor, Fin.val_succ]; omega
    · rw [byteAt_ksb, byteAt_key, hksb, hblock']
  · have hb := h.boundary_of_exhausted hc
    have hctr : ctrInc s.ctr = LE16 (t / 16 + 1) := by
      rw [h.ctr, ctrInc_LE16]
      exact congrArg (fun k => LE16 (k + 1)) (by omega)
    have hblock : (t + 1 + 15) / 16 = t / 16 + 1 := by omega
    rw [nextByte_of_exhausted s hc]
    refine ⟨?_, ?_, by simp, fun _ => ?_, fun _ => ?_⟩
    · simp [keystreamByte, keyBlock, hctr, hb]
    · rw [byteAt_ctr, refill_ctr, hctr, hblock]
    · simp only [byteAt_cursor, Fin.val_succ, Fin.val_zero]; omega
    · rw [byteAt_ksb, byteAt_key, refill_ksb, refill_key, hctr, hblock, keyBlock]

/-- An emit step moves nothing on the output channel before its byte is taken (R57, R73). -/
theorem streamView_out_nextByte (s : State) : (streamView (nextByte s).2.trace).out = (streamView s.trace).out := by
  by_cases hc : s.cursor.val < 16
  · simp [nextByte_of_lt s hc]
  · simp [nextByte_of_exhausted s hc, StreamView.add]

/-- The invariant reads `KEY_VALID`, the generator registers and the bytes produced, nothing else. -/
theorem KeystreamInv.congr {l : Option (List Byte)} {s t : State} (h : KeystreamInv l s)
    (hv : t.keyValid = s.keyValid) (hkey : t.key = s.key) (hctr : t.ctr = s.ctr) (hksb : t.ksb = s.ksb)
    (hcur : t.cursor = s.cursor) (hout : t.produced = s.produced) : KeystreamInv l t := by
  simpa only [KeystreamInv, hv, hkey, hctr, hksb, hcur, hout] using h

/-- A SEED establishes it, of its own seed, with no byte produced yet (R65). -/
theorem keystreamInv_load (m : List Byte) (s : State) : KeystreamInv (some m) (offerResponse .ok 0 (loadSeed m s)) := by
  have hnone : (offerResponse .ok 0 (loadSeed m s)).produced = [] := by
    simp [State.produced, StreamView.add, Phase.offeredBytes]
  rw [keystreamInv_iff, hnone]
  exact fun _ => ⟨⟨m, rfl, rfl⟩, rfl, zeroBlock_eq, fun _ => rfl, by simp, by simp⟩

/-- Putting the byte of an emit step on offer keeps it (R61, R73). -/
theorem KeystreamInv.next {l : Option (List Byte)} {s : State} {n : Nat} (h : KeystreamInv l s)
    (hp : s.phase = .emit n none) :
    KeystreamInv l { (nextByte s).2 with phase := .emit n (some (nextByte s).1) } := by
  rw [keystreamInv_iff] at h ⊢
  obtain ⟨hvalid, hkey, -⟩ := nextByte_frame s
  have hprod : State.produced { (nextByte s).2 with phase := .emit n (some (nextByte s).1) } =
      s.produced ++ [(nextByte s).1] := by
    simp [State.produced, Phase.offeredBytes, streamView_out_nextByte, hp]
  intro hv
  obtain ⟨hseed, hbytes, hregs⟩ := h (hvalid ▸ hv)
  obtain ⟨hbyte, hctr, hfresh, hcur, hksb⟩ := hregs.nextByte
  rw [hprod, List.length_append, List.length_singleton]
  refine ⟨by simpa only [hkey] using hseed, ?_, hctr, hfresh, hcur, hksb⟩
  calc s.produced ++ [(nextByte s).1]
      = keystream s.key s.produced.length ++ [keystreamByte s.key s.produced.length] := by rw [← hbytes, hbyte]
    _ = keystream (nextByte s).2.key (s.produced.length + 1) := by rw [hkey, keystream_succ]

/-- Every kind of move keeps the formula: a SEED's load starts the stream, an emit step advances it by a byte, and the others
produce no byte: the host's taking one only moves it from the offer to the channel. -/
theorem keystreamInv_keptByMoves : KeptByMoves KeystreamInv where
  seed _ _ _ _ _ h hp _ _ := h.congr rfl rfl rfl rfl rfl
    (by simp [State.produced, StreamView.add, Phase.offeredBytes, hp])
  read _ _ _ _ _ h hp _ _ _ := h.congr rfl rfl rfl rfl rfl
    (by simp [State.produced, StreamView.add, Phase.offeredBytes, hp])
  error _ _ _ _ _ h hp _ := h.congr rfl rfl rfl rfl rfl
    (by simp [State.produced, offerError_eq, StreamView.add, Phase.offeredBytes, hp])
  take _ _ _ _ h hp _ _ := h.congr rfl rfl rfl rfl rfl (by simp [State.produced, StreamView.add])
  load _ s _ _ _ := keystreamInv_load s.hashMsg s
  next _ _ _ h hp _ := h.next hp
  out _ _ _ _ h hp := h.congr rfl rfl rfl rfl rfl (by simp [State.produced, StreamView.add, Phase.offeredBytes, hp])
  done _ _ _ h hp _ := h.congr rfl rfl rfl rfl rfl (by simp [State.produced, Phase.offeredBytes, hp])
  send _ _ _ h hp := h.congr rfl rfl rfl rfl rfl (by simp [State.produced, StreamView.add, Phase.offeredBytes, hp])

/-- Settles O29: every kind of move keeps the formula, so every step does; the host's offers produce no byte, and reset unseeds
the block. -/
theorem keystreamFormulaIsInvariant : Obligations.KeystreamFormulaIsInvariant := by
  refine ⟨fun last s t h hst => keystreamInv_keptByMoves.step h hst, fun last s x h => ?_⟩
  cases x with
  | move g => exact keystreamInv_keptByMoves.portStep g last s h
  | offerCommand w => exact h.congr rfl rfl rfl rfl rfl rfl
  | offerSeedByte b => exact h.congr rfl rfl rfl rfl rfl rfl
  | reset => exact fun hv => Bool.noConfusion hv

/-! The counter (R71, R79). -/

/-- Where the increment of the counter stops (R71). -/
theorem ctrInc_getElem (ctr : Block) (i : Fin 16) :
    (ctrInc ctr)[i] = if ∀ j : Fin 16, j < i → ctr[j] = 0xFF#8 then ctr[i] + 1#8 else ctr[i] := by
  have hbyte := carryInc_getElem ctr.toList i.val (by simp)
  have hbefore : (∀ j : Fin 16, j < i → ctr[j] = 0xFF#8) ↔
      ∀ j (hj : j < i.val), ctr.toList[j]'(by simp; omega) = 0xFF#8 := by
    constructor
    · intro h j hj
      simpa using h ⟨j, by omega⟩ hj
    · intro h j hj
      simpa using h j.val hj
  simp only [hbefore]
  simpa [ctrInc] using hbyte

/-- The all-ones counter wraps to 0 (R79). -/
theorem ctrInc_allOnes : ctrInc (Vector.replicate 16 0xFF#8) = zeroBlock := by decide

/-- Settles O19: byte by byte from the carry loop, as a whole from its number. -/
theorem counterIncrementCarries : Obligations.CounterIncrementCarries :=
  ⟨fun ctr => ⟨ctrInc_getElem ctr, ctrInc_eq ctr⟩, by decide, ctrInc_allOnes, by decide⟩

/-- The counter after `k` refills (R77). -/
theorem ctrInc_iterate (k : Nat) : ctrInc^[k] zeroBlock = LE16 k := by
  induction k with
  | zero => exact zeroBlock_eq
  | succ k ih => rw [Function.iterate_succ_apply', ih, ctrInc_LE16]

/-- The first 2^128 counter values after a SEED are distinct (R79). -/
theorem LE16_succ_injective {j k : Nat} (hj : j < 2 ^ 128) (hk : k < 2 ^ 128) (h : LE16 (j + 1) = LE16 (k + 1)) :
    j = k := by
  have hmod : j ≡ k [MOD 2 ^ 128] := Nat.ModEq.add_right_cancel' 1 ((LE16_eq_iff _ _).mp h)
  exact Nat.ModEq.eq_of_lt_of_lt hmod hj hk

/-- Settles O20: counters are equal exactly if their values are equal modulo 2^128, and no READ looks at the counter's value. -/
theorem counterWrapsWithoutError : Obligations.CounterWrapsWithoutError := by
  refine ⟨ctrInc_iterate, fun key k => keyBlock_congr key (Nat.add_mod_right k _),
    fun j k hj hk h => LE16_succ_injective hj hk h, fun s hs => ?_, fun n s h => ⟨_, execRead_seeded n s h, rfl⟩⟩
  rw [refill_ctr, refill_ksb, hs, ctrInc_allOnes]
  exact ⟨rfl, rfl⟩

/-! What a READ emits and asks (R70, R74, R80). -/

/-- The state after a READ of `n` bytes of a seeded block (R70). -/
def afterRead (n : Nat) (s : State) : State := complete .ok n { emitMany n s with remain := 0 }

theorem exec_read_seeded (n : Nat) (s : State) (h : s.keyValid = true) : exec (.read n) s = .next (afterRead n s) :=
  execRead_seeded n s h

theorem exec_read_unseeded (n : Nat) (s : State) (h : s.keyValid = false) :
    exec (.read n) s = .next (raiseError .uninitializedState s) :=
  execRead_unseeded n s h

@[simp] theorem afterRead_keyValid (n : Nat) (s : State) : (afterRead n s).keyValid = s.keyValid := by
  simp [afterRead, emitMany_frame]

@[simp] theorem afterRead_key (n : Nat) (s : State) : (afterRead n s).key = s.key := by
  simp [afterRead, emitMany_frame]

/-- A successful READ ends with its response, after its emit steps (R70). -/
theorem afterRead_trace (n : Nat) (s : State) :
    (afterRead n s).trace = (emitMany n s).trace ++ [.resp (responseWord .ok s.keyValid n)] := by
  simp [afterRead, emitMany_frame]

theorem afterRead_responses (n : Nat) (s : State) :
    responses (afterRead n s).trace = responses s.trace ++ [responseWord .ok s.keyValid n] := by
  simp [afterRead_trace, emitMany_responses]

theorem afterRead_outBytes (n : Nat) (s : State) :
    outBytes (afterRead n s).trace = outBytes s.trace ++ (List.range n).map (readByte s) := by
  obtain ⟨es, h⟩ := emitMany_spec n s
  simp [afterRead_trace, h.trace, h.out]

theorem afterRead_cipherRequests (n : Nat) (s : State) :
    cipherRequests (afterRead n s).trace =
      cipherRequests s.trace ++ refillRequests s.key (Block.val s.ctr) (refillCount s.cursor n) := by
  obtain ⟨es, h⟩ := emitMany_spec n s
  simp [afterRead_trace, h.trace, h.cipher]

theorem afterRead_hashRequests (n : Nat) (s : State) :
    hashRequests (afterRead n s).trace = hashRequests s.trace := by
  obtain ⟨es, h⟩ := emitMany_spec n s
  obtain ⟨-, -, -, hhash, -⟩ := emissions_elsewhere h.kinds
  simp [afterRead_trace, h.trace, hhash]

theorem afterRead_ctr (n : Nat) (s : State) :
    (afterRead n s).ctr = LE16 (Block.val s.ctr + refillCount s.cursor n) := by
  obtain ⟨es, h⟩ := emitMany_spec n s
  exact h.ctr

theorem afterRead_ksb (n : Nat) (s : State) :
    (afterRead n s).ksb = if refillCount s.cursor n = 0 then s.ksb
      else keyBlock s.key (Block.val s.ctr + refillCount s.cursor n) := by
  obtain ⟨es, h⟩ := emitMany_spec n s
  exact h.ksb

theorem afterRead_cursor (n : Nat) (s : State) :
    (afterRead n s).cursor.val = s.cursor.val + n - 16 * refillCount s.cursor n := by
  obtain ⟨es, h⟩ := emitMany_spec n s
  exact h.cursor

/-- Settles O23: a READ that succeeds asks as many blocks as it refills, one that fails moves only its response. -/
theorem readIssuesExactlyItsCipherRequests : Obligations.ReadIssuesExactlyItsCipherRequests := by
  intro n s
  cases hv : s.keyValid with
  | true =>
    refine ⟨_, exec_read_seeded n s hv, afterRead_hashRequests n s, rfl, fun _ => ?_, nofun⟩
    exact ⟨refillCount s.cursor n, fun h => if_pos h, fun h => if_neg h.not_ge, afterRead_cipherRequests n s⟩
  | false =>
    exact ⟨_, exec_read_unseeded n s hv, by simp [raiseError_eq], rfl, nofun, fun _ => by simp [raiseError_eq]⟩

/-- Settles O25: one byte per emit step, and the response word's fields are its code and its count. -/
theorem readEmitsExactlyItsLength : Obligations.ReadEmitsExactlyItsLength := by
  intro n s hn
  cases hv : s.keyValid with
  | true =>
    obtain ⟨hcode, -, -, hcount⟩ := fields_of_responseWord .ok s.keyValid n
    refine ⟨_, _, exec_read_seeded n s hv, afterRead_responses n s, fun _ => ⟨?_, hcode, ?_⟩, nofun⟩
    · simp [afterRead_outBytes]
    · rw [hcount, Nat.mod_eq_of_lt hn]
  | false =>
    obtain ⟨hcode, -, -, hcount⟩ := fields_of_responseWord .uninitializedState s.keyValid 0
    refine ⟨_, responseWord .uninitializedState s.keyValid 0, exec_read_unseeded n s hv, ?_, nofun,
      fun _ => ⟨?_, hcode, hcount⟩⟩
    · simp [raiseError_eq, Error.code]
    · simp [raiseError_eq]

/-! The lazy refill (R76). -/

/-- A READ that ends at a block boundary refills for every block it reads but the one it starts in. -/
theorem refillCount_of_boundary {c n : Nat} (hc : c ≤ 16) (hn : 0 < n) (h : (c + n) % 16 = 0) :
    refillCount c n = (c + n) / 16 - 1 := by
  unfold refillCount
  split <;> omega

/-- A READ of at least one byte of an exhausted block begins with the refill (R72, R73). -/
theorem afterRead_begins_with_refill (k : Nat) (s : State) (h : s.cursor = 16) :
    ∃ es, (afterRead (k + 1) s).trace = s.trace ++ .cipher (wireKey s.key) (wireBlock (ctrInc s.ctr))
      (wireBlock (Config.cipherKernel s.key (ctrInc s.ctr))) :: es := by
  obtain ⟨es, hes⟩ := emitMany_spec k (emitStep s)
  have hfirst := nextByte_of_exhausted s (by simp [h])
  rw [afterRead_trace, emitMany, hes.trace, emitStep_eq, hfirst]
  simp only [record_trace, byteAt_trace, refill_trace, List.append_assoc, List.singleton_append]
  exact ⟨_, rfl⟩

/-- Settles O27: at a boundary the cursor is 16 and the last block refilled stays, and the READ after it begins with its refill. -/
theorem refillIsLazy : Obligations.RefillIsLazy := by
  intro n s hv hn hb
  have hr := refillCount_of_boundary (cursor_le s) hn hb
  have hcur : (afterRead n s).cursor = 16 := by
    refine Fin.ext ((afterRead_cursor n s).trans ?_)
    rw [hr, show ((16 : Fin 17) : Nat) = 16 from rfl]
    omega
  refine ⟨_, exec_read_seeded n s hv, hcur, ?_, fun hle => ?_, fun hlt => ?_, fun k => ?_⟩
  · rw [← hr]
    exact afterRead_cipherRequests n s
  · have h0 : refillCount s.cursor n = 0 := if_pos hle
    rw [afterRead_ksb, afterRead_ctr, h0, if_pos rfl, Nat.add_zero, LE16_val]
    exact ⟨rfl, rfl⟩
  · have h0 : refillCount s.cursor n ≠ 0 := by omega
    rw [afterRead_ksb, afterRead_ctr, afterRead_key, if_neg h0, keyBlock]
  · obtain ⟨es, hes⟩ := afterRead_begins_with_refill k (afterRead n s) hcur
    exact ⟨_, es, exec_read_seeded (k + 1) _ (by rw [afterRead_keyValid, hv]), hes⟩

/-! Several READs (R78). -/

/-- READs of the same total length leave the same registers and have emitted the same bytes, whatever their number. -/
theorem ReadsTo.same_stream {total a b : Nat} {s t u : State} (ht : ReadsTo total a s t) (hu : ReadsTo total b s u) :
    outBytes u.trace = outBytes t.trace ∧ u.key = t.key ∧ u.ctr = t.ctr ∧ u.ksb = t.ksb ∧ u.cursor = t.cursor := by
  have hsame : u.generator = t.generator := hu.generator.trans ht.generator.symm
  simp only [State.generator, Generator.mk.injEq] at hsame
  obtain ⟨hkey, hctr, hksb, hcur, hout⟩ := hsame
  exact ⟨hout, hkey, hctr, hksb, hcur⟩

/-- Settles O28: the one READ and the several make the same emit steps. -/
theorem splitReadsDeliverTheSameStream : Obligations.SplitReadsDeliverTheSameStream := by
  intro ns s hv
  obtain ⟨t, hread, ht⟩ := read_readsTo ns.sum s hv
  obtain ⟨u, hruns, hu⟩ := runReads_readsTo ns s hv
  obtain ⟨hout, hkey, hctr, hksb, hcur⟩ := ht.same_stream hu
  exact ⟨t, u, hread, hruns, hout, hkey, hctr, hksb, hcur, ht.responses, hu.responses⟩

/-! The READ of no bytes, and one emit step (R75, R73). -/

/-- Settles O26: no emit step, so the response is all that is left of the READ. -/
theorem readOfZeroBytesOnlyResponds : Obligations.ReadOfZeroBytesOnlyResponds := by
  intro s hv
  rw [exec_read_seeded 0 s hv]
  simp [afterRead, emitMany, complete, sendResponse, recordCode, record, hv, responseWord_ok_seeded_zero]

/-- Settles O32: the byte is at the cursor of a block with unread bytes, and at 0 of a refilled one. -/
theorem emitStepEmitsAtTheCursor : Obligations.EmitStepEmitsAtTheCursor := by
  intro s
  by_cases hc : s.cursor.val < 16
  · have hne : s.cursor ≠ 16 := fun h => by simp [h] at hc
    simp only [if_neg hne]
    exact ⟨⟨s.cursor.val, hc⟩, rfl, by rw [emitStep_eq, nextByte_of_lt s hc]; rfl⟩
  · simp only [if_pos (cursor_eq_of_not_lt hc)]
    exact ⟨0, rfl, by rw [emitStep_eq, nextByte_of_exhausted s hc]; rfl⟩

end Sys2Proof.Machine
end

section
/-! PROOFS. The family of 60_exceptions: what an error does, and that nothing of it but STATUS lasts. -/

namespace Sys2Proof.Machine

/-! The whole effect of an error (R83, R85). -/

/-- In IDLE an error writes STATUS and sends its response, nothing else (R83). -/
theorem raiseError_of_idle (e : Error) (s : State) (hp : s.phase = .idle) :
    raiseError e s = { s with
      lastCode := e.code, errSticky := true,
      trace := s.trace ++ [.resp (responseWord e.code s.keyValid 0)] } := by
  simp [raiseError_eq, complete, sendResponse, recordCode, record, hp]

/-- The same with the word that failed accepted before it (R61). -/
theorem raiseError_accepted (e : Error) (s : State) (w : CmdWord) (ws : List CmdWord) (hp : s.phase = .idle) :
    raiseError e { s with cmdIn := ws, trace := s.trace ++ [.cmd w] } = { s with
      cmdIn := ws, lastCode := e.code, errSticky := true,
      trace := s.trace ++ [.cmd w, .resp (responseWord e.code s.keyValid 0)] } := by
  simp [raiseError_of_idle e { s with cmdIn := ws, trace := s.trace ++ [.cmd w] } hp]

/-- A SEED waits in ABSORB or completes with OK: it never fails (R68). -/
theorem absorbSeed_ends (s : State) :
    (absorbSeed s).phase = .absorb ∨ ((absorbSeed s).phase = .idle ∧ (absorbSeed s).lastCode = .ok) := by
  by_cases h : s.remain ≤ s.seedIn.length
  · rw [absorbSeed_completes s h]
    exact .inr ⟨rfl, rfl⟩
  · rw [absorbSeed_waits s (by omega)]
    exact .inl rfl

/-- A command ends in IDLE with OK, or in an error it raises, or it is a SEED that waits. -/
theorem exec_ends (i : Instr) (s : State) :
    ∃ t, exec i s = .next t ∧
      (t.phase = .absorb ∨ (t.phase = .idle ∧ t.lastCode = .ok) ∨ ∃ e, t = raiseError e s) := by
  cases i with
  | seed n => exact ⟨_, rfl, (absorbSeed_ends _).imp_right .inl⟩
  | read n =>
    cases hv : s.keyValid with
    | true => exact ⟨_, exec_read_seeded n s hv, .inr (.inl ⟨rfl, rfl⟩)⟩
    | false => exact ⟨_, exec_read_unseeded n s hv, .inr (.inr ⟨_, rfl⟩)⟩

/-- A word that completes with an error raises it in the state that has accepted the word (R83). -/
theorem step_raises {s t : State} {w : CmdWord} {ws : List CmdWord} (hp : s.phase = .idle) (hc : s.cmdIn = w :: ws)
    (hst : step s = .next t) (ht : t.phase = .idle) (hcode : t.lastCode ≠ .ok) :
    ∃ e, t = raiseError e { s with cmdIn := ws, trace := s.trace ++ [.cmd w] } := by
  rw [step_idle_cons s w ws hp hc] at hst
  cases hd : decode w with
  | error _ =>
    rw [hd] at hst
    cases hst
    exact ⟨_, rfl⟩
  | ok i =>
    obtain ⟨t', hexec, hends⟩ := exec_ends i { s with cmdIn := ws, trace := s.trace ++ [.cmd w] }
    rw [hd] at hst
    cases hst.symm.trans hexec
    rcases hends with habsorb | ⟨-, hok⟩ | hraise
    · simp [habsorb] at ht
    · exact absurd hok hcode
    · exact hraise

/-- Settles O44: such a command is an error raised in IDLE. -/
theorem failedCommandTouchesNothing : Obligations.FailedCommandTouchesNothing := by
  intro s t w ws hp hc hst ht hcode
  obtain ⟨e, rfl⟩ := step_raises hp hc hst ht hcode
  rw [raiseError_accepted e s w ws hp]

/-- The response word to an illegal word: CODE 2, COUNT 0 (R54, R85). -/
theorem responseWord_illegalCommand (seeded : Bool) :
    responseWord .illegalCommand seeded 0 = if seeded then 0x12#64 else 0x02#64 := by
  cases seeded <;> decide

/-- Settles O7: an illegal word raises its error in IDLE, and the seed bytes left on offer are there for the next SEED. -/
theorem illegalWordRaisesIllegalCommand : Obligations.IllegalWordRaisesIllegalCommand := by
  intro s w ws hp hc hw
  obtain ⟨e, hd⟩ := (decode_eq_error_iff w).mpr hw
  have hst : step s = .next (raiseError .illegalCommand { s with cmdIn := ws, trace := s.trace ++ [.cmd w] }) := by
    rw [step_idle_cons s w ws hp hc, hd]
  refine ⟨_, hst, ?_, fun n hn => ⟨_, execSeed_eq_afterSeed n _ hn, rfl⟩⟩
  rw [raiseError_accepted _ s w ws hp, ← responseWord_illegalCommand]
  rfl

/-! Two blocks, one of which took an error (R87): every operation keeps them the same, STATUS apart. -/

/-- A step ends in IDLE, or in a SEED that waits in ABSORB. -/
theorem step_phase {s t : State} (h : step s = .next t) : t.phase = .idle ∨ t.phase = .absorb := by
  have hseed : ∀ s', (absorbSeed s').phase = .idle ∨ (absorbSeed s').phase = .absorb :=
    fun s' => (absorbSeed_ends s').symm.imp_left And.left
  rcases step_cases s with ⟨hp, -, hst⟩ |
    ⟨w, ws, s', -, -, -, ⟨n, -, hst⟩ | ⟨n, -, -, hst⟩ | ⟨n, -, -, hst⟩ | ⟨e, -, hst⟩⟩ |
    ⟨-, hst⟩ | ⟨n, o, -, hst⟩ | ⟨w, -, hst⟩ <;> cases h.symm.trans hst
  · exact .inl hp
  · exact hseed _
  · exact .inl rfl
  · exact .inl rfl
  · exact .inl rfl
  · exact hseed _
  · exact .inl rfl
  · exact .inl rfl

/-- A run goes on from where its first step leads. -/
theorem run_succ_of_step {s s' : State} (h : step s = .next s') (k : Nat) : core.run (k + 1) s = core.run k s' := by
  have h' : core.step s = .next s' := h
  simp only [Host.Core.run, h']

/-- `u` is where the error `e` came first, `t` where it did not: since then (the ports had moved `past` in `t`, `past'` in `u`)
the same items have moved, and the states differ in STATUS only, in `LAST_CODE` only until the next response. -/
def AfterError (e : Error) (past past' : List Event) (t u : State) : Prop :=
  ∃ es, t.trace = past ++ es ∧ u = { t with
    lastCode := if responses es = [] then e.code else t.lastCode, errSticky := true, trace := past' ++ es }

section
variable {e : Error} {past past' : List Event} {t u : State}

/-- Right after the error. -/
theorem AfterError.raiseError (e : Error) (s : State) (hp : s.phase = .idle) :
    AfterError e s.trace (raiseError e s).trace s (raiseError e s) :=
  ⟨[], by simp, by simp [raiseError_of_idle e s hp]⟩

/-- The fields that decide what a step does are the same. -/
theorem AfterError.fields (h : AfterError e past past' t u) :
    u.phase = t.phase ∧ u.cmdIn = t.cmdIn ∧ u.keyValid = t.keyValid ∧ u.remain = t.remain ∧ u.cursor = t.cursor := by
  obtain ⟨es, -, rfl⟩ := h
  exact ⟨rfl, rfl, rfl, rfl, rfl⟩

/-- An operation that moves no response, and neither reads nor writes STATUS and the history, keeps the blocks so. -/
theorem AfterError.silent (h : AfterError e past past' t u) {f : State → State} {fs : List Event}
    (hresp : responses fs = []) (htrace : (f t).trace = t.trace ++ fs) (hcode : (f t).lastCode = t.lastCode)
    (hf : ∀ c es, f { t with lastCode := c, errSticky := true, trace := es } =
      { f t with lastCode := c, errSticky := true, trace := es ++ fs }) : AfterError e past past' (f t) (f u) := by
  obtain ⟨es, ht, rfl⟩ := h
  exact ⟨es ++ fs, by simp [htrace, ht], by simp [hf, hresp, hcode]⟩

theorem AfterError.accept (h : AfterError e past past' t u) (w : CmdWord) (ws : List CmdWord) :
    AfterError e past past' { t with cmdIn := ws, trace := t.trace ++ [.cmd w] }
      { u with cmdIn := ws, trace := u.trace ++ [.cmd w] } :=
  h.silent (f := fun s => { s with cmdIn := ws, trace := s.trace ++ [.cmd w] }) (fs := [.cmd w]) rfl rfl rfl fun _ _ => rfl

theorem AfterError.startSeed (h : AfterError e past past' t u) (n : Nat) :
    AfterError e past past' (startSeed n t) (startSeed n u) :=
  h.silent (fs := []) rfl (by simp) rfl fun _ _ => by simp [Machine.startSeed]

theorem AfterError.takeSeed (h : AfterError e past past' t u) (k : Nat) :
    AfterError e past past' (takeSeed k t) (takeSeed k u) :=
  h.silent (responses_seeds _) (takeSeed_trace k t) rfl fun _ _ => rfl

theorem AfterError.loadSeed (h : AfterError e past past' t u) (m : List Byte) :
    AfterError e past past' (loadSeed m t) (loadSeed m u) :=
  h.silent (fs := [.hash]) rfl rfl rfl fun _ _ => rfl

theorem AfterError.setPhase (h : AfterError e past past' t u) (p : Phase) :
    AfterError e past past' { t with phase := p } { u with phase := p } :=
  h.silent (f := fun s => { s with phase := p }) (fs := []) rfl (by simp) rfl fun _ _ => by simp

theorem AfterError.setRemain (h : AfterError e past past' t u) (n : Nat) :
    AfterError e past past' { t with remain := n } { u with remain := n } :=
  h.silent (f := fun s => { s with remain := n }) (fs := []) rfl (by simp) rfl fun _ _ => by simp

theorem AfterError.refill (h : AfterError e past past' t u) : AfterError e past past' (refill t) (refill u) :=
  h.silent (by simp) (refill_trace t) rfl fun _ _ => rfl

/-- The emit step after its refill, if any: one byte at the cursor (R73). -/
theorem AfterError.emitByte (h : AfterError e past past' t u) (i : Fin 16) :
    AfterError e past past' (record [.out (byteAt i t).1] (byteAt i t).2) (record [.out (byteAt i u).1] (byteAt i u).2) :=
  h.silent (f := fun s => record [.out (byteAt i s).1] (byteAt i s).2) (by simp) rfl rfl fun _ _ => rfl

theorem AfterError.emitStep (h : AfterError e past past' t u) : AfterError e past past' (emitStep t) (emitStep u) := by
  obtain ⟨-, -, -, -, hcur⟩ := h.fields
  rw [emitStep_eq, emitStep_eq]
  by_cases hc : t.cursor.val < 16
  · rw [nextByte_of_lt t hc, nextByte_of_lt u (hcur ▸ hc)]
    simp only [hcur]
    exact h.emitByte _
  · rw [nextByte_of_exhausted t hc, nextByte_of_exhausted u (hcur ▸ hc)]
    exact h.refill.emitByte 0

theorem AfterError.emitMany (h : AfterError e past past' t u) (n : Nat) :
    AfterError e past past' (emitMany n t) (emitMany n u) := by
  induction n generalizing t u with
  | zero => exact h
  | succ n ih => exact ih h.emitStep

/-- A completion writes `LAST_CODE` in both blocks, so from here on it is the same (R27). -/
theorem AfterError.complete (h : AfterError e past past' t u) (c : Code) (n : Nat) :
    AfterError e past past' (complete c n t) (complete c n u) := by
  obtain ⟨es, ht, rfl⟩ := h
  refine ⟨es ++ [.resp (responseWord c t.keyValid n)], by simp [ht], ?_⟩
  simp [Machine.complete, sendResponse, recordCode, record]

/-- What a SEED in ABSORB sends the hash kernel (R59). -/
theorem AfterError.seedMessage (h : AfterError e past past' t u) : seedMessage u = seedMessage t := by
  obtain ⟨es, -, rfl⟩ := h
  rfl

theorem AfterError.absorbSeed (h : AfterError e past past' t u) :
    AfterError e past past' (absorbSeed t) (absorbSeed u) := by
  obtain ⟨-, -, -, hrem, -⟩ := h.fields
  have htake := h.takeSeed t.remain
  unfold Machine.absorbSeed
  rw [h.seedMessage, hrem]
  cases Machine.seedMessage t with
  | some m => exact (htake.loadSeed m).complete .ok 0
  | none => exact htake.setPhase .absorb

/-- Every command (R87). -/
theorem AfterError.exec (h : AfterError e past past' t u) (i : Instr) :
    ∃ t' u', exec i t = .next t' ∧ exec i u = .next u' ∧ AfterError e past past' t' u' := by
  obtain ⟨-, -, hvalid, -⟩ := h.fields
  cases i with
  | seed n => exact ⟨_, _, rfl, rfl, (h.startSeed n).absorbSeed⟩
  | read n =>
    cases hv : t.keyValid with
    | true =>
      exact ⟨_, _, exec_read_seeded n t hv, exec_read_seeded n u (hvalid.trans hv),
        ((h.emitMany n).setRemain 0).complete .ok n⟩
    | false => exact ⟨_, _, exec_read_unseeded n t hv, exec_read_unseeded n u (hvalid.trans hv), h.complete _ 0⟩

/-- Every step, but from the middle of a READ or from RESPOND, where no step ends. -/
theorem AfterError.step (h : AfterError e past past' t u) (hp : t.phase = .idle ∨ t.phase = .absorb) :
    ∃ t' u', step t = .next t' ∧ step u = .next u' ∧ AfterError e past past' t' u' := by
  obtain ⟨hphase, hcmd, -⟩ := h.fields
  rcases hp with hp | hp
  · cases hc : t.cmdIn with
    | nil => exact ⟨t, u, (idle_nil .all t hp hc).1, (idle_nil .all u (hphase.trans hp) (hcmd.trans hc)).1, h⟩
    | cons w ws =>
      have ha := h.accept w ws
      rw [step_idle_cons t w ws hp hc, step_idle_cons u w ws (hphase.trans hp) (hcmd.trans hc)]
      cases decode w with
      | ok i => exact ha.exec i
      | error _ => exact ⟨_, _, rfl, rfl, ha.complete _ 0⟩
  · refine ⟨Machine.absorbSeed t, Machine.absorbSeed u, ?_, ?_, h.absorbSeed⟩
    · simp [Machine.step, finishCommand, hp]
    · simp [Machine.step, finishCommand, hphase.trans hp]

/-- The hash exchange of the next step (R59). -/
theorem AfterError.stepHash (h : AfterError e past past' t u) : stepHash u = stepHash t := by
  obtain ⟨hphase, hcmd, -⟩ := h.fields
  rcases hp : t.phase with _ | _ | _ | _
  · have hpu := hphase.trans hp
    rcases hc : t.cmdIn with _ | ⟨w, ws⟩
    · simp [Machine.stepHash, acceptCommand, hp, hpu, hc, hcmd]
    · rcases hd : decode w with _ | (n | _)
      · rw [stepHash_of_illegal hp hc hd, stepHash_of_illegal hpu (hcmd.trans hc) hd]
      · rw [stepHash_of_command hp hc hd, stepHash_of_command hpu (hcmd.trans hc) hd]
        exact congrArg (Option.map hashExchange) ((h.accept w ws).startSeed n).seedMessage
      · rw [stepHash_of_command hp hc hd, stepHash_of_command hpu (hcmd.trans hc) hd]
        rfl
  · simp only [Machine.stepHash, hphase, hp]
    exact congrArg (Option.map hashExchange) h.seedMessage
  · simp only [Machine.stepHash, hphase, hp]
  · simp only [Machine.stepHash, hphase, hp]

/-- Any number of steps (R87). -/
theorem AfterError.run (h : AfterError e past past' t u) (hp : t.phase = .idle ∨ t.phase = .absorb) (k : Nat) :
    ∃ t' u', core.run k t = .next t' ∧ core.run k u = .next u' ∧ AfterError e past past' t' u' := by
  induction k generalizing t u with
  | zero => exact ⟨t, u, rfl, rfl, h⟩
  | succ k ih =>
    obtain ⟨t₁, u₁, ht, hu, h₁⟩ := h.step hp
    rw [run_succ_of_step ht, run_succ_of_step hu]
    exact ih h₁ (step_phase ht)

end

/-- Settles O45: the error starts two runs that `AfterError` holds together, and a SEED leaves a seeded block, whose READs succeed. -/
theorem nothingOfAnErrorRemainsButStatus : Obligations.NothingOfAnErrorRemainsButStatus := by
  intro e s hp
  refine ⟨fun k => ?_, fun n hn => ⟨_, execSeed_eq_afterSeed n _ hn, fun k => ⟨_, exec_read_seeded k _ rfl, rfl⟩⟩⟩
  obtain ⟨t, u, ht, hu, h⟩ := (AfterError.raiseError e s hp).run (.inl hp) k
  have hhash := h.stepHash
  obtain ⟨es, htrace, rfl⟩ := h
  exact ⟨t, _, es, ht, hu, htrace, rfl, rfl, hhash⟩

end Sys2Proof.Machine
end

section
/-! PROOFS. The family of 70_reset_and_hazards: reset at any time. -/

namespace Sys2Proof.Machine

/-- The STATUS word reset leaves, in any phase (R26, R94). -/
@[simp] theorem resetBlock_status (s : State) : (resetBlock s).status = 0#32 :=
  calc (resetBlock s).status
    _ = State.reset.status := rfl
    _ = 0#32 := by decide

/-- Reset is no move on a data port: no byte is taken or delivered, no response is sent, no kernel is asked (R95). -/
theorem portEvents_append_reset (es : List Event) :
    outBytes (es ++ [.reset]) = outBytes es ∧ seedsTaken (es ++ [.reset]) = seedsTaken es ∧
    responses (es ++ [.reset]) = responses es ∧ hashRequests (es ++ [.reset]) = hashRequests es ∧
    cipherRequests (es ++ [.reset]) = cipherRequests es := by
  simp

/-- Settles O49: the registers and the gathering message are those of `State.reset` whatever the phase, and the trace grows by
the reset event alone, which moves nothing on any port. That a gathering message and a byte on offer are dropped is the model's
choice (log 14, log 10). -/
theorem resetAtAnyTime : Obligations.ResetAtAnyTime := by
  intro s
  obtain ⟨hout, hseed, hresp, hhash, hcipher⟩ := portEvents_append_reset s.trace
  exact ⟨rfl, rfl, rfl, rfl, resetBlock_status s, hout, hseed, rfl, hresp, hhash, hcipher⟩

end Sys2Proof.Machine
end

section
/-! PROOFS. Decoder and encoder undo each other (30_encoding), assembler lines, and the words of STATUS and counter. -/

namespace Sys2Proof

/-! Decoder and encoder (R49 to R51). -/

/-- The word of a command by its fields (R49, R50). -/
theorem encode_eq_packCommand (i : Instr) : encode i = packCommand (BitVec.ofNat 56 i.len) 0#4 i.opcode := by
  cases i <;> rfl

/-- A word is put together from its fields (R49). -/
theorem packCommand_fields (w : CmdWord) : packCommand (lenField w) (rsvField w) (opcField w) = w := by
  refine BitVec.eq_of_getLsbD_eq fun i hi => ?_
  simp [packCommand, lenField, rsvField, opcField]
  grind

/-- Settles O2: the fields of the encoded word are the command's, and its length fits `LEN`. -/
theorem decodeOfEncodeIsIdentity : Obligations.DecodeOfEncodeIsIdentity := by
  intro i hi
  obtain ⟨hlen, hrsv, hopc⟩ := fields_of_packCommand (BitVec.ofNat 56 i.len) 0#4 i.opcode
  rw [decode_eq_ok_iff, encode_eq_packCommand, hlen, hrsv, hopc, BitVec.toNat_ofNat]
  exact ⟨⟨rfl, rfl⟩, (Nat.mod_eq_of_lt hi).symm⟩

/-- Settles O3: decoding reads the fields that the encoder puts together. -/
theorem encodeOfDecodeIsIdentity : Obligations.EncodeOfDecodeIsIdentity := by
  intro w i h
  obtain ⟨⟨hrsv, hopc⟩, hlen⟩ := (decode_eq_ok_iff w i).mp h
  refine ⟨len_of_decode h, ?_⟩
  rw [encode_eq_packCommand, hlen, BitVec.ofNat_toNat, BitVec.setWidth_eq, ← hrsv, ← hopc, packCommand_fields]

/-- Settles O1, each word by evaluation. -/
theorem decodeOfListedWords : Obligations.DecodeOfListedWords := by
  unfold Obligations.DecodeOfListedWords
  decide

end Sys2Proof

namespace Sys2Proof.Machine

/-! Assembler lines (R63). -/

/-- A seed that a SEED word can announce is assembled to that word and its bytes (R51, R63). -/
theorem assembleSeed_eq {m : List Byte} (h : m.length < 2 ^ 56) :
    assembleSeed m = some ⟨[encode (.seed m.length)], m⟩ :=
  if_pos ((lt_two_pow_iff_le_maxLen _).mp h)

/-- Settles O56: each line assembles to the encoding of its command, which decodes to the command. -/
theorem assembledLinesDecodeToTheirCommands : Obligations.AssembledLinesDecodeToTheirCommands := by
  refine ⟨fun bs h => ?_, fun cs h hascii => ?_, fun n h => ?_, fun w => rfl⟩
  · exact ⟨_, assembleSeed_eq h, decodeOfEncodeIsIdentity (.seed bs.length) h⟩
  · have hall : cs.all (·.toNat < 128) = true := by simpa using hascii
    have hlen : (cs.map fun c => BitVec.ofNat 8 c.toNat).length = cs.length := List.length_map _
    refine ⟨encode (.seed cs.length), ?_, decodeOfEncodeIsIdentity (.seed cs.length) h⟩
    rw [AsmLine.assemble, if_pos hall, assembleSeed_eq (hlen ▸ h), hlen]
  · refine ⟨encode (.read n), ?_, decodeOfEncodeIsIdentity (.read n) h⟩
    rw [AsmLine.assemble, expandRead, if_pos ((lt_two_pow_iff_le_maxLen n).mp h)]
    rfl

/-! Numbers, counters and the STATUS word. -/

/-- Settles O18: `LE16` is defined digit by digit, and a counter is determined by its value. -/
theorem littleEndianRoundTrip : Obligations.LittleEndianRoundTrip :=
  ⟨fun k i => by simp [LE16_getElem], val_LE16, LE16_val⟩

/-- Settles O36, each field bit by bit. -/
theorem statusWordFields : Obligations.StatusWordFields := by
  intro s
  refine ⟨?_, ?_, ?_, ?_, ?_⟩ <;>
  · refine BitVec.eq_of_getLsbD_eq fun i hi => ?_
    simp [State.status]
    grind

end Sys2Proof.Machine
end

section
/-! PROOFS. What one move and one command do, said once; the port level against the step (R61, log 11). -/

namespace Sys2Proof.Machine

/-! The step that carries a command on (R61, log 11). -/

theorem step_absorb {s : State} (hp : s.phase = .absorb) : step s = .next (absorbSeed s) := by
  simp only [step, finishCommand, hp]

theorem step_emit {s : State} {n : Nat} {o : Option Byte} (hp : s.phase = .emit n o) :
    step s = .next (emitRemaining n (takeOffered o s)) := by
  simp only [step, finishCommand, hp]

theorem step_respond {s : State} {w : RespWord} (hp : s.phase = .respond w) : step s = .next (sendResponse w s) := by
  simp only [step, finishCommand, hp]

theorem stepHash_absorb {s : State} (hp : s.phase = .absorb) : stepHash s = absorbHash s := by
  simp only [stepHash, hp]

theorem stepHash_emit {s : State} {n : Nat} {o : Option Byte} (hp : s.phase = .emit n o) : stepHash s = none := by
  simp only [stepHash, hp]

theorem stepHash_respond {s : State} {w : RespWord} (hp : s.phase = .respond w) : stepHash s = none := by
  simp only [stepHash, hp]

/-! Everything a move can do (R61). -/

/-- The state with the first word on offer accepted (R61). -/
abbrev accepted (w : CmdWord) (ws : List CmdWord) (s : State) : State :=
  { s with cmdIn := ws, trace := s.trace ++ [.cmd w] }

/-- What a move of R61 can do: the state it leads to, and its hash exchange. `stay` is a wait. -/
inductive MovesTo (s : State) : State → Option HashExchange → Prop
  | stay : MovesTo s s none
  | seed {w ws n} (hp : s.phase = .idle) (hc : s.cmdIn = w :: ws) (hd : decode w = .ok (.seed n)) :
      MovesTo s (beginSeed n (accepted w ws s)) none
  | read {w ws n} (hp : s.phase = .idle) (hc : s.cmdIn = w :: ws) (hd : decode w = .ok (.read n)) (hv : s.keyValid = true) :
      MovesTo s { accepted w ws s with remain := n, phase := .emit n none } none
  | unseeded {w ws n} (hp : s.phase = .idle) (hc : s.cmdIn = w :: ws) (hd : decode w = .ok (.read n))
      (hv : s.keyValid = false) : MovesTo s (offerError .uninitializedState (accepted w ws s)) none
  | illegal {w ws e} (hp : s.phase = .idle) (hc : s.cmdIn = w :: ws) (hd : decode w = .error e) :
      MovesTo s (offerError .illegalCommand (accepted w ws s)) none
  | take {b bs} (hp : s.phase = .absorb) (hr : 0 < s.remain) (hs : s.seedIn = b :: bs) : MovesTo s (takeSeed 1 s) none
  | load (hp : s.phase = .absorb) (hr : s.remain = 0) :
      MovesTo s (offerResponse .ok 0 (loadSeed s.hashMsg s)) (some (hashExchange s.hashMsg))
  | next {n} (hp : s.phase = .emit n none) (hr : 0 < s.remain) :
      MovesTo s { (nextByte s).2 with phase := .emit n (some (nextByte s).1) } none
  | out {n b} (hp : s.phase = .emit n (some b)) : MovesTo s { takeOffered (some b) s with phase := .emit n none } none
  | done {n} (hp : s.phase = .emit n none) (hr : s.remain = 0) : MovesTo s (offerResponse .ok n s) none
  | send {w} (hp : s.phase = .respond w) : MovesTo s (sendResponse w s) none

theorem idleMove_movesTo (g : Grant) (s : State) (hp : s.phase = .idle) : MovesTo s (portStep g s) none := by
  cases hc : s.cmdIn with
  | nil =>
    rw [(idle_nil g s hp hc).2]
    exact .stay
  | cons w ws =>
    rw [portStep_idle_cons g s w ws hp hc]
    rcases hd : decode w with e | (n | n)
    · exact .illegal hp hc hd
    · exact .seed hp hc hd
    · change MovesTo s (beginRead n (accepted w ws s)) none
      unfold beginRead
      split
      case isTrue hv => exact .read hp hc hd hv
      case isFalse hv => exact .unseeded hp hc hd (Bool.eq_false_of_not_eq_true hv)

theorem absorbMove_movesTo (g : Grant) (s : State) (hp : s.phase = .absorb) :
    MovesTo s (absorbMove g s) (portHash g s) := by
  unfold absorbMove
  split
  case isTrue hr =>
    cases hg : g.hashAnswers with
    | true => simpa [portHash, hp, hr, hg] using MovesTo.load hp hr
    | false => simpa [portHash, hg] using MovesTo.stay
  case isFalse hr =>
    rw [portHash_eq_none (.inr (.inl hr))]
    split
    · exact .stay
    case h_2 hs => exact .take hp (Nat.pos_of_ne_zero hr) hs

theorem emitMove_movesTo (g : Grant) (n : Nat) (o : Option Byte) (s : State) (hp : s.phase = .emit n o) :
    MovesTo s (emitMove g n o s) none := by
  cases o with
  | some b =>
    simp only [emitMove]
    split
    · exact .out hp
    · exact .stay
  | none =>
    simp only [emitMove]
    split
    case isTrue hr => exact .done hp hr
    case isFalse hr =>
      split
      · exact .stay
      · exact .next hp (Nat.pos_of_ne_zero hr)

/-- Every move at the ports is one of those, whatever is granted. -/
theorem portStep_movesTo (g : Grant) (s : State) : MovesTo s (portStep g s) (portHash g s) := by
  rcases hp : s.phase with _ | _ | ⟨n, o⟩ | w
  · rw [portHash_eq_none (.inl (by simp [hp]))]
    exact idleMove_movesTo g s hp
  · simpa only [portStep, hp] using absorbMove_movesTo g s hp
  · rw [portHash_eq_none (.inl (by simp [hp]))]
    simpa only [portStep, hp] using emitMove_movesTo g n o s hp
  · rw [portHash_eq_none (.inl (by simp [hp]))]
    simp only [portStep, hp]
    split
    · exact .send hp
    · exact .stay

/-! The port level against the step. -/

/-- Settles O51: `stepMoves` granted moves are the step. -/
theorem portMovesReachTheStep : Obligations.PortMovesReachTheStep := by
  intro s t hst
  obtain ⟨hrun, hhash⟩ := step_eq_portRun s
  cases hst.symm.trans hrun
  exact ⟨stepMoves s, rfl, hhash⟩

/-- With no seed byte left to take, a SEED in ABSORB hashes those taken and responds (R61, R65). -/
theorem absorbSeed_of_none_left (s : State) (hr : s.remain = 0) :
    absorbSeed s = complete .ok 0 (loadSeed s.hashMsg s) := by
  rw [absorbSeed_completes s (by omega), hr]
  simp [takeSeed, record, loadSeed, complete, sendResponse, recordCode, hr]

/-- With no byte left to produce, a READ in EMIT responds (R61). -/
theorem emitRemaining_of_none_left (s : State) (n : Nat) (hr : s.remain = 0) :
    emitRemaining n s = complete .ok n s := by
  rw [emitRemaining, hr, emitMany, ← hr]

/-- A byte produced and put on offer is still part of the READ (R61). -/
theorem emitRemaining_next (s : State) (n : Nat) (hr : 0 < s.remain) :
    emitRemaining n (takeOffered (some (nextByte s).1) { (nextByte s).2 with phase := .emit n (some (nextByte s).1) }) =
      emitRemaining n s := by
  rw [← emitRemaining_succ s n (s.remain - 1) (.emit n (some (nextByte s).1)) (by omega), emitStep_eq, ← nextByte_remain s]
  rfl

/-- Where a move leads inside a command, the step is the same step, and makes the hash exchange that the move has not made. -/
def PartOfStep (s t : State) (h : Option HashExchange) : Prop :=
  t.phase ≠ .idle ∧ step t = step s ∧ (stepHash s).toList = h.toList ++ (stepHash t).toList

/-- A move with no hash exchange is a part of the step, if it leaves step and exchange the same. -/
theorem partOfStep_of_eq {s t : State} (hp : t.phase ≠ .idle) (hst : step t = step s) (hh : stepHash t = stepHash s) :
    PartOfStep s t none := ⟨hp, hst, by simp [hh]⟩

/-- The word accepted and the command begun (R61). -/
theorem partOfStep_begin {s t : State} {w : CmdWord} {ws : List CmdWord} {i : Instr} (hp : s.phase = .idle)
    (hc : s.cmdIn = w :: ws) (hd : decode w = .ok i) (ht : t.phase ≠ .idle)
    (hst : step t = exec i (accepted w ws s)) (hh : stepHash t = commandHash i (accepted w ws s)) :
    PartOfStep s t none :=
  partOfStep_of_eq ht (by rw [hst, step_idle_cons s w ws hp hc, hd]) (by rw [hh, stepHash_of_command hp hc hd])

/-- Each move is a part of the step, or waits, or sends the response that completes it. -/
theorem MovesTo.refines {s t : State} {h : Option HashExchange} (hm : MovesTo s t h) :
    (t = s ∧ h = none) ∨ PartOfStep s t h ∨ (step s = .next t ∧ stepHash s = h) := by
  cases hm with
  | stay => exact .inl ⟨rfl, rfl⟩
  | @seed w ws n hp hc hd =>
    refine .inr (.inl (partOfStep_begin hp hc hd nofun ?_ (stepHash_absorb rfl)))
    rw [step_absorb rfl]
    exact congrArg _ (absorbSeed_phase (startSeed n (accepted w ws s)) .absorb)
  | @read w ws n hp hc hd hv =>
    refine .inr (.inl (partOfStep_begin hp hc hd nofun ?_ (stepHash_emit rfl)))
    rw [step_emit rfl]
    refine Eq.trans ?_ (if_pos hv).symm
    exact congrArg _ (emitRemaining_phase n { accepted w ws s with remain := n } (.emit n none))
  | unseeded hp hc hd hv =>
    refine .inr (.inl (partOfStep_begin hp hc hd nofun ?_ (stepHash_respond rfl)))
    exact (step_respond rfl).trans (exec_read_unseeded _ (accepted _ _ s) hv).symm
  | @illegal w ws e hp hc hd =>
    refine .inr (.inl (partOfStep_of_eq nofun ?_ ?_))
    · rw [step_respond rfl, step_idle_cons s w ws hp hc, hd]
      rfl
    · rw [stepHash_respond rfl, stepHash_of_illegal hp hc hd]
  | take hp hr hs =>
    obtain ⟨hend, hmsg⟩ := absorbSeed_takeSeed_one s hr (by simp [hs])
    have hp' : (takeSeed 1 s).phase = .absorb := hp
    refine .inr (.inl (partOfStep_of_eq (by rw [hp']; nofun) ?_ ?_))
    · rw [step_absorb hp', step_absorb hp, hend]
    · rw [stepHash_absorb hp', stepHash_absorb hp, hmsg]
  | load hp hr =>
    refine .inr (.inl ⟨nofun, ?_, ?_⟩)
    · rw [step_absorb hp, absorbSeed_of_none_left s hr]
      exact step_respond rfl
    · have hnone : stepHash (offerResponse .ok 0 (loadSeed s.hashMsg s)) = none := stepHash_respond rfl
      rw [stepHash_absorb hp, absorbHash_some s (by omega), hnone, hr, List.take_zero, List.append_nil]
      rfl
  | @next n hp hr =>
    refine .inr (.inl (partOfStep_of_eq nofun ?_ ?_))
    · rw [step_emit rfl, step_emit hp, emitRemaining_next s n hr]
      rfl
    · rw [stepHash_emit rfl, stepHash_emit hp]
  | @out n b hp =>
    refine .inr (.inl (partOfStep_of_eq nofun ?_ ?_))
    · rw [step_emit rfl, step_emit hp]
      exact congrArg _ (emitRemaining_phase n (takeOffered (some b) s) (.emit n none))
    · rw [stepHash_emit rfl, stepHash_emit hp]
  | @done n hp hr =>
    refine .inr (.inl (partOfStep_of_eq nofun ?_ ?_))
    · rw [step_emit hp, takeOffered, emitRemaining_of_none_left s n hr]
      exact step_respond rfl
    · rw [stepHash_respond rfl, stepHash_emit hp]
  | send hp => exact .inr (.inr ⟨step_respond hp, stepHash_respond hp⟩)

/-- Settles O50, by the moves of R61. -/
theorem portMovesRefineTheStep : Obligations.PortMovesRefineTheStep :=
  fun g s => (portStep_movesTo g s).refines

end Sys2Proof.Machine
end

section
/-! PROOFS. The invariants of every step and of everything at the ports, and what only a SEED or a reset changes (10_state). -/

namespace Sys2Proof.Machine

/-- A property that every kind of move keeps, that does not look at what the host offers, and that reset establishes, is an
invariant of the step and of the port inputs. -/
theorem KeptByMoves.invariant {P : State → Prop} (hP : KeptByMoves fun _ => P)
    (hoffer : ∀ s ws bs, P s → P { s with cmdIn := ws, seedIn := bs }) (hreset : ∀ s, P (resetBlock s)) :
    (∀ s t, P s → Machine.step s = .next t → P t) ∧ ∀ s x, P s → P (portInput x s) := by
  refine ⟨fun s t h hst => hP.step (l := none) h hst, fun s x h => ?_⟩
  cases x with
  | move g => exact hP.portStep g none s h
  | offerCommand w => exact hoffer s (s.cmdIn ++ [w]) s.seedIn h
  | offerSeedByte b => exact hoffer s s.cmdIn (s.seedIn ++ [b]) h
  | reset => exact hreset s

/-! No message outside ABSORB (R25). -/

/-- Every kind of move keeps the hash kernel port free of a message outside ABSORB: a SEED takes bytes in ABSORB only, and its
load carries them off. -/
theorem noSeedInv_keptByMoves : KeptByMoves fun _ => NoSeedInv where
  seed _ _ _ _ _ _ _ _ _ := fun _ => rfl
  read _ _ _ _ _ h hp _ _ _ := fun _ => h (by simp [hp])
  error _ _ _ _ _ h hp _ := fun _ => h (by simp [hp])
  take _ _ _ _ _ hp _ _ := fun hne => absurd hp hne
  load _ _ _ _ _ := fun _ => rfl
  next _ s _ h hp _ := fun _ => by
    obtain ⟨-, -, -, -, -, -, -, -, hmsg⟩ := nextByte_frame s
    exact hmsg.trans (h (by simp [hp]))
  out _ _ _ _ h hp := fun _ => h (by simp [hp])
  done _ _ _ h hp _ := fun _ => h (by simp [hp])
  send _ _ _ h hp := fun _ => h (by simp [hp])

/-- Settles O12: the host's offers put nothing on the hash kernel port, and reset takes a gathering message away (log 14). -/
theorem noSeedIsHeldOutsideAbsorb : Obligations.NoSeedIsHeldOutsideAbsorb :=
  noSeedInv_keptByMoves.invariant (fun _ _ _ h => h) fun _ _ => rfl

/-! Lengths (R33, R51, R61). -/

/-- Every kind of move keeps the lengths in their fields: a decoded length fits, and `REMAIN` only counts down from it. -/
theorem lengthInv_keptByMoves : KeptByMoves fun _ => LengthInv where
  seed _ _ _ _ _ _ _ _ hd := ⟨len_of_decode hd, nofun⟩
  read _ _ _ _ n _ _ _ hd _ := by
    refine ⟨len_of_decode hd, fun m o hm => ?_⟩
    cases hm
    exact ⟨len_of_decode hd, le_refl n, fun ho => absurd rfl ho⟩
  error _ _ _ _ _ h _ _ := ⟨h.1, nofun⟩
  take _ s _ _ h hp _ _ := ⟨(Nat.sub_le s.remain 1).trans_lt h.1, fun _ _ hm => by simp [hp] at hm⟩
  load _ _ h _ _ := ⟨h.1, nofun⟩
  next _ s n h hp hr := by
    obtain ⟨hfield, hemit⟩ := h
    obtain ⟨hn, hle, -⟩ := hemit n _ hp
    refine ⟨by simpa using hfield, fun m o hm => ?_⟩
    cases hm
    exact ⟨hn, by simpa using hle, fun _ => by simpa using hr⟩
  out _ s n _ h hp := by
    obtain ⟨hfield, hemit⟩ := h
    obtain ⟨hn, hle, -⟩ := hemit n _ hp
    refine ⟨(Nat.sub_le s.remain 1).trans_lt hfield, fun m o hm => ?_⟩
    cases hm
    exact ⟨hn, (Nat.sub_le s.remain 1).trans hle, fun ho => absurd rfl ho⟩
  done _ _ _ h _ _ := ⟨h.1, nofun⟩
  send _ _ _ h _ := ⟨h.1, nofun⟩

/-- Settles O39: the host's offers write no length, and after reset no READ is in progress and `REMAIN` is 0 (log 4). -/
theorem lengthsFitTheirFields : Obligations.LengthsFitTheirFields :=
  lengthInv_keptByMoves.invariant (fun _ _ _ h => h) fun _ => ⟨Nat.two_pow_pos _, nofun⟩

/-! Responses and commands since reset (R54). -/

/-- An emit step moves nothing on the command, response and hash ports before its byte is taken (R72, R73). -/
theorem nextByte_moves_elsewhere (s : State) :
    ∃ es, (nextByte s).2.trace = s.trace ++ es ∧
      responses es = [] ∧ commands es = [] ∧ seedsTaken es = 0 ∧ hashRequests es = 0 ∧ .reset ∉ es := by
  by_cases hc : s.cursor.val < 16
  · exact ⟨[], by simp [nextByte_of_lt s hc]⟩
  · exact ⟨[_], by rw [nextByte_of_exhausted s hc]; rfl, emissions_elsewhere (by simp)⟩

/-- A move inside a command, with no command accepted and no response sent, keeps the balance. -/
theorem ResponseInv.congr {s t : State} (h : ResponseInv s) (hs : s.phase ≠ .idle) (ht : t.phase ≠ .idle)
    (hc : commands (sinceReset t.trace) = commands (sinceReset s.trace))
    (hr : responses (sinceReset t.trace) = responses (sinceReset s.trace)) : ResponseInv t := by
  simpa only [ResponseInv, hc, hr, if_neg hs, if_neg ht] using h

/-- A command accepted is one more in progress (R61). -/
theorem ResponseInv.accept {s t : State} (h : ResponseInv s) (hs : s.phase = .idle) (ht : t.phase ≠ .idle) (w : CmdWord)
    (htrace : t.trace = s.trace ++ [.cmd w]) : ResponseInv t := by
  simpa [ResponseInv, htrace, hs, ht] using h

/-- A response sent ends it (R54). -/
theorem ResponseInv.sendResponse {s : State} (h : ResponseInv s) (hs : s.phase ≠ .idle) (w : RespWord) :
    ResponseInv (Machine.sendResponse w s) := by
  simpa [ResponseInv, hs] using h

/-- Every kind of move keeps the balance of commands and responses. -/
theorem responseInv_keptByMoves : KeptByMoves fun _ => ResponseInv where
  seed _ _ w _ _ h hp _ _ := h.accept hp nofun w rfl
  read _ _ w _ _ h hp _ _ _ := h.accept hp nofun w rfl
  error _ _ w _ _ h hp _ := h.accept hp nofun w rfl
  take _ _ _ _ h hp _ _ := h.congr (by simp [hp]) (by simp [hp]) (by simp) (by simp)
  load _ _ h hp _ := h.congr (by simp [hp]) nofun (by simp) (by simp)
  next _ s _ h hp _ := by
    obtain ⟨es, htrace, hresp, hcmd, -, -, hreset⟩ := nextByte_moves_elsewhere s
    have hsince := sinceReset_append s.trace es hreset
    exact h.congr (by simp [hp]) nofun (by simp [htrace, hsince, hcmd]) (by simp [htrace, hsince, hresp])
  out _ _ _ _ h hp := h.congr (by simp [hp]) nofun (by simp) (by simp)
  done _ _ _ h hp _ := h.congr (by simp [hp]) nofun rfl rfl
  send _ _ w h hp := h.sendResponse (by simp [hp]) w

/-- Settles O38: the host's offers are no acceptance yet, and reset starts both counts again. -/
theorem oneResponsePerCommand : Obligations.OneResponsePerCommand :=
  responseInv_keptByMoves.invariant (fun _ _ _ h => h) fun _ => by simp [ResponseInv, State.reset]

/-! STATUS (R19, R27, R28). -/

/-- The responses since reset, one on offer counted (log 12). -/
def State.answers (s : State) : List RespWord := responses (sinceReset s.trace) ++ s.phase.offeredResponse

/-- The invariant reads the STATUS fields, the number of hash requests and the responses, nothing else. -/
theorem StatusInv.congr {s t : State} (h : StatusInv s) (hv : t.keyValid = s.keyValid) (hcode : t.lastCode = s.lastCode)
    (herr : t.errSticky = s.errSticky) (hhash : hashRequests (sinceReset t.trace) = hashRequests (sinceReset s.trace))
    (hans : t.answers = s.answers) : StatusInv t := by
  rw [State.answers, State.answers] at hans
  simpa only [StatusInv, hv, hcode, herr, hhash, hans] using h

/-- OK is the one code of value 0 (R55). -/
theorem Code.bits_eq_zero_iff (c : Code) : c.bits = 0#4 ↔ c = .ok := by cases c <;> decide

/-- A response put on offer is the last one, and its code is written (R27, R28, R61). -/
theorem StatusInv.offerResponse {s : State} (h : StatusInv s) (hp : s.phase.offeredResponse = []) (c : Code) (n : Nat) :
    StatusInv (Machine.offerResponse c n s) := by
  obtain ⟨hvalid, -, herr⟩ := h
  obtain ⟨hcode, -⟩ := fields_of_responseWord c s.keyValid n
  rw [hp, List.append_nil] at herr
  refine ⟨hvalid, ?_, ?_⟩
  · simp [Phase.offeredResponse, hcode]
  · simp [Phase.offeredResponse, or_and_right, exists_or, hcode, Code.bits_eq_zero_iff, herr]

/-- A hash request makes the block seeded (R65). -/
theorem StatusInv.loadSeed {s : State} (h : StatusInv s) (m : List Byte) : StatusInv (Machine.loadSeed m s) := by
  obtain ⟨-, hcode, herr⟩ := h
  exact ⟨by simp, by simpa using hcode, by simpa using herr⟩

/-- Every kind of move keeps what STATUS says: only a SEED's load makes a hash request, and only what ends a command offers a
response; the host's taking one only moves it from the offer to the channel. -/
theorem statusInv_keptByMoves : KeptByMoves fun _ => StatusInv where
  seed _ _ _ _ _ h hp _ _ := h.congr rfl rfl rfl (by simp) (by simp [State.answers, Phase.offeredResponse, hp])
  read _ _ _ _ _ h hp _ _ _ := h.congr rfl rfl rfl (by simp) (by simp [State.answers, Phase.offeredResponse, hp])
  error _ s w ws e h hp _ := by
    have haccept : StatusInv (accepted w ws s) := h.congr rfl rfl rfl (by simp) (by simp [State.answers])
    exact haccept.offerResponse (by simp [Phase.offeredResponse, hp]) e.code 0
  take _ _ _ _ h _ _ _ := h.congr rfl rfl rfl (by simp) (by simp [State.answers])
  load _ s h hp _ := (h.loadSeed s.hashMsg).offerResponse (by simp [Phase.offeredResponse, hp]) .ok 0
  next _ s _ h hp _ := by
    obtain ⟨hvalid, -, hcode, herr, -⟩ := nextByte_frame s
    obtain ⟨es, htrace, hresp, -, -, hhash, hreset⟩ := nextByte_moves_elsewhere s
    have hsince := sinceReset_append s.trace es hreset
    exact h.congr hvalid hcode herr (by simp [htrace, hsince, hhash])
      (by simp [State.answers, Phase.offeredResponse, hp, htrace, hsince, hresp])
  out _ _ _ _ h hp := h.congr rfl rfl rfl (by simp) (by simp [State.answers, Phase.offeredResponse, hp])
  done _ _ n h hp _ := h.offerResponse (by simp [Phase.offeredResponse, hp]) .ok n
  send _ _ _ h hp := h.congr rfl rfl rfl (by simp) (by simp [State.answers, Phase.offeredResponse, hp])

/-- Settles O37: the host's offers are on neither port, and reset clears STATUS together with what has moved since. -/
theorem statusReflectsTheResponses : Obligations.StatusReflectsTheResponses :=
  statusInv_keptByMoves.invariant (fun _ _ _ h => h) fun _ => by
    simp [StatusInv, State.reset, Phase.offeredResponse, Code.bits]

/-- Settles O35: the block is not seeded, idle, and nothing has moved. -/
theorem invariantsHoldAtReset : Obligations.InvariantsHoldAtReset := by
  refine ⟨nofun, nofun, rfl, ?_, ⟨by decide, nofun⟩, fun _ => rfl⟩
  simp [StatusInv, State.reset, Phase.offeredResponse, Code.bits]

/-! KEY_VALID and ERR_STICKY (R19, R28). -/

/-- The flags of `s` stand in `t`. -/
def FlagsStand (s t : State) : Prop :=
  (s.keyValid = true → t.keyValid = true) ∧ (s.errSticky = true → t.errSticky = true)

/-- Every kind of move writes `KEY_VALID` to 1 only and adds to `ERR_STICKY` (R65, R28). -/
theorem flagsStand_keptByMoves (s : State) : KeptByMoves fun _ => FlagsStand s where
  seed _ _ _ _ _ h _ _ _ := h
  read _ _ _ _ _ h _ _ _ _ := h
  error _ _ _ _ _ h _ _ := h.imp_right fun herr hs => by simp [offerError_eq, herr hs]
  take _ _ _ _ h _ _ _ := h
  load _ _ h _ _ := ⟨fun _ => rfl, fun hs => by simp [h.2 hs]⟩
  next _ t _ h _ _ := by
    obtain ⟨hvalid, -, -, herr, -⟩ := nextByte_frame t
    simpa only [FlagsStand, hvalid, herr] using h
  out _ _ _ _ h _ := h
  done _ _ _ h _ _ := h.imp_right fun herr hs => by simp [herr hs]
  send _ _ _ h _ := h

/-- Settles O41: the flags of the state before stand after every move, so after a step too. -/
theorem onlyResetClearsTheFlags : Obligations.OnlyResetClearsTheFlags := by
  refine ⟨fun s t hst => (flagsStand_keptByMoves s).step (l := none) ⟨id, id⟩ hst, fun s x hx => ?_⟩
  cases x with
  | move g => exact (flagsStand_keptByMoves s).portStep g none s ⟨id, id⟩
  | offerCommand w => exact ⟨id, id⟩
  | offerSeedByte b => exact ⟨id, id⟩
  | reset => exact absurd rfl hx

/-! KEY (R20, R65). -/

/-- From `s` to `t` one hash request was made for each of the messages `ms`, and `KEY` is that of the last, if any. -/
def KeyedBy (ms : List (List Byte)) (s t : State) : Prop :=
  t.key = (ms.getLast?.map deriveKey).getD s.key ∧ hashRequests t.trace = hashRequests s.trace + ms.length

theorem KeyedBy.trans {ms ms' : List (List Byte)} {s t u : State} (h : KeyedBy ms s t) (h' : KeyedBy ms' t u) :
    KeyedBy (ms ++ ms') s u := by
  obtain ⟨hkey, hcount⟩ := h
  obtain ⟨hkey', hcount'⟩ := h'
  refine ⟨?_, by rw [hcount', hcount, List.length_append, Nat.add_assoc]⟩
  rw [hkey', hkey, List.getLast?_append]
  cases ms'.getLast? <;> rfl

/-- A move that makes no hash request writes no key. -/
theorem keyedBy_nil {s t : State} (hkey : t.key = s.key) (hcount : hashRequests t.trace = hashRequests s.trace) :
    KeyedBy [] s t := ⟨hkey, hcount⟩

/-- A move's hash exchange carries the message its key is derived from (R65). -/
theorem MovesTo.keyedBy {s t : State} {h : Option HashExchange} (hm : MovesTo s t h) :
    ∃ ms, h.toList = ms.map hashExchange ∧ KeyedBy ms s t := by
  cases hm with
  | stay => exact ⟨[], rfl, keyedBy_nil rfl rfl⟩
  | seed => exact ⟨[], rfl, keyedBy_nil rfl (by simp [beginSeed])⟩
  | read => exact ⟨[], rfl, keyedBy_nil rfl (by simp)⟩
  | unseeded => exact ⟨[], rfl, keyedBy_nil rfl (by simp [offerError_eq])⟩
  | illegal => exact ⟨[], rfl, keyedBy_nil rfl (by simp [offerError_eq])⟩
  | take => exact ⟨[], rfl, keyedBy_nil rfl (by simp)⟩
  | load => exact ⟨[s.hashMsg], rfl, rfl, by simp⟩
  | next =>
    obtain ⟨-, hkey, -⟩ := nextByte_frame s
    obtain ⟨es, htrace, -, -, -, hhash, -⟩ := nextByte_moves_elsewhere s
    exact ⟨[], rfl, keyedBy_nil hkey (by simp [htrace, hhash])⟩
  | out => exact ⟨[], rfl, keyedBy_nil rfl (by simp [takeOffered])⟩
  | done => exact ⟨[], rfl, keyedBy_nil rfl rfl⟩
  | send => exact ⟨[], rfl, keyedBy_nil rfl (by simp)⟩

theorem portRun_keyedBy (k : Nat) (s : State) :
    ∃ ms, portRunHashes k s = ms.map hashExchange ∧ KeyedBy ms s (portRun k s) := by
  induction k generalizing s with
  | zero => exact ⟨[], rfl, keyedBy_nil rfl rfl⟩
  | succ k ih =>
    obtain ⟨ms, hms, h⟩ := (portStep_movesTo .all s).keyedBy
    obtain ⟨ms', hms', h'⟩ := ih (portStep .all s)
    exact ⟨ms ++ ms', by rw [portRunHashes, hms, hms', List.map_append], h.trans h'⟩

/-- With one exchange at most: none and the same key, or one and the key derived from its message. -/
theorem keyedBy_of_exchange {h : Option HashExchange} {ms : List (List Byte)} {s t : State}
    (hms : h.toList = ms.map hashExchange) (hk : KeyedBy ms s t) :
    (h = none ∧ t.key = s.key ∧ hashRequests t.trace = hashRequests s.trace) ∨
    ∃ m, h = some (hashExchange m) ∧ t.key = deriveKey m ∧ hashRequests t.trace = hashRequests s.trace + 1 := by
  obtain ⟨hkey, hcount⟩ := hk
  cases h with
  | none =>
    obtain rfl : ms = [] := List.map_eq_nil_iff.mp hms.symm
    exact .inl ⟨rfl, hkey, hcount⟩
  | some x =>
    obtain ⟨m, rfl, rfl⟩ := List.map_eq_singleton_iff.mp hms.symm
    exact .inr ⟨m, rfl, hkey, hcount⟩

/-- Settles O40: each move writes the key its exchange derives, and a step is a run of moves with one exchange at most. -/
theorem keyChangesOnlyBySeed : Obligations.KeyChangesOnlyBySeed := by
  refine ⟨fun s t hst => ?_, fun g s => ?_⟩
  · obtain ⟨hrun, hhash⟩ := step_eq_portRun s
    cases hst.symm.trans hrun
    obtain ⟨ms, hms, h⟩ := portRun_keyedBy (stepMoves s) s
    exact keyedBy_of_exchange (hhash.symm.trans hms) h
  · obtain ⟨ms, hms, h⟩ := (portStep_movesTo g s).keyedBy
    exact keyedBy_of_exchange hms h

end Sys2Proof.Machine
end

section
/-! PROOFS. What a command word does, said once: its response, the seed bytes it takes, the kernels it asks (30_encoding). -/

namespace Sys2Proof.Machine

/-! A SEED short of bytes (R61, R98). -/

/-- The state in which a SEED of `n` bytes has taken those on offer and waits in ABSORB for the rest (log 10). -/
def waitingSeed (n : Nat) (s : State) : State :=
  { s with
    phase := .absorb, remain := n - s.seedIn.length, seedIn := [], hashMsg := s.seedIn,
    trace := s.trace ++ List.replicate s.seedIn.length .seed }

theorem exec_seed_completes (n : Nat) (s : State) (h : n ≤ s.seedIn.length) :
    exec (.seed n) s = .next (afterSeed n (deriveKey (s.seedIn.take n)) (s.seedIn.drop n) s) :=
  execSeed_eq_afterSeed n s h

theorem exec_seed_waits (n : Nat) (s : State) (h : s.seedIn.length < n) : exec (.seed n) s = .next (waitingSeed n s) :=
  execSeed_waits n s h

/-- With the bytes that came since on offer, the waiting SEED is the one that finds all its bytes at once: taking those on offer
and then the rest is taking them all. -/
theorem absorbSeed_waitingSeed (n : Nat) (s : State) (more : List Byte) (h : s.seedIn.length < n) :
    absorbSeed { waitingSeed n s with seedIn := more } = absorbSeed (startSeed n { s with seedIn := s.seedIn ++ more }) ∧
    absorbHash { waitingSeed n s with seedIn := more } = absorbHash (startSeed n { s with seedIn := s.seedIn ++ more }) := by
  have hfirst : takeSeed s.seedIn.length (beginSeed n { s with seedIn := s.seedIn ++ more }) =
      { waitingSeed n s with seedIn := more } := by
    simp [takeSeed, record, beginSeed, startSeed, waitingSeed]
  have hsame : takeSeed (n - s.seedIn.length) { waitingSeed n s with seedIn := more } =
      takeSeed n (beginSeed n { s with seedIn := s.seedIn ++ more }) := by
    rw [← hfirst, takeSeed_takeSeed, Nat.add_sub_cancel' h.le]
  obtain ⟨hend, hmsg⟩ := absorbSeed_congr (s := { waitingSeed n s with seedIn := more }) hsame
  exact ⟨hend.trans (absorbSeed_phase _ _), hmsg⟩

/-- Settles O10: while nothing comes the SEED in ABSORB stays, and when the rest comes it ends as the whole SEED does. -/
theorem seedDeliveredInPiecesIsTheSameSeed : Obligations.SeedDeliveredInPiecesIsTheSameSeed := by
  intro n s more h
  have hwait : absorbSeed (waitingSeed n s) = waitingSeed n s :=
    absorbSeed_of_none_offered _ rfl rfl (Nat.sub_pos_of_lt h)
  have hnone : absorbHash (waitingSeed n s) = none := absorbHash_none _ (Nat.sub_pos_of_lt h)
  obtain ⟨hend, hmsg⟩ := absorbSeed_waitingSeed n s more h
  exact ⟨exec_seed_waits n s h, absorbHash_none (startSeed n s) h, (step_absorb rfl).trans (congrArg _ hwait),
    (stepHash_absorb rfl).trans hnone, (step_absorb rfl).trans (congrArg _ hend), (stepHash_absorb rfl).trans hmsg⟩

/-- Settles O13: SEED ends in `afterSeed` or in `waitingSeed`, and neither writes what the statement names. -/
theorem seedFrame : Obligations.SeedFrame := by
  intro n s t hexec
  rcases le_or_gt n s.seedIn.length with h | h
  · cases hexec.symm.trans (exec_seed_completes n s h)
    exact ⟨rfl, rfl, rfl, by simp, by simp [afterSeed], by simp [afterSeed], ⟨_, List.append_assoc _ _ _⟩, .inl rfl⟩
  · cases hexec.symm.trans (exec_seed_waits n s h)
    exact ⟨rfl, rfl, rfl, by simp [waitingSeed], by simp [waitingSeed], by simp [waitingSeed], ⟨_, rfl⟩,
      .inr ⟨rfl, rfl, rfl, rfl, rfl, rfl, rfl, by simp [waitingSeed], by simp [waitingSeed]⟩⟩

/-! Everything a command word does (R44, R85). -/

/-- How the command of word `w` ends, executed from the state `a` that has accepted it, and its hash exchange. -/
inductive CommandEnds (w : CmdWord) (a : State) : State → Option HashExchange → Prop
  | seeds {n} (hd : decode w = .ok (.seed n)) (hn : n ≤ a.seedIn.length) :
      CommandEnds w a (afterSeed n (deriveKey (a.seedIn.take n)) (a.seedIn.drop n) a)
        (some (hashExchange (a.seedIn.take n)))
  | waits {n} (hd : decode w = .ok (.seed n)) (hn : a.seedIn.length < n) : CommandEnds w a (waitingSeed n a) none
  | reads {n} (hd : decode w = .ok (.read n)) (hv : a.keyValid = true) : CommandEnds w a (afterRead n a) none
  | unseeded {n} (hd : decode w = .ok (.read n)) (hv : a.keyValid = false) :
      CommandEnds w a (raiseError .uninitializedState a) none
  | illegal {e} (hd : decode w = .error e) : CommandEnds w a (raiseError .illegalCommand a) none

/-- A step that accepts a word ends as its command does. -/
theorem step_commandEnds (s : State) (w : CmdWord) (ws : List CmdWord) (hp : s.phase = .idle) (hc : s.cmdIn = w :: ws) :
    ∃ t, step s = .next t ∧ CommandEnds w (accepted w ws s) t (stepHash s) := by
  have hst := step_idle_cons s w ws hp hc
  rcases hd : decode w with e | (n | n) <;> rw [hd] at hst
  · rw [stepHash_of_illegal hp hc hd]
    exact ⟨_, hst, .illegal hd⟩
  · rw [stepHash_of_command hp hc hd]
    rcases le_or_gt n s.seedIn.length with h | h
    · refine ⟨_, hst.trans (exec_seed_completes n (accepted w ws s) h), ?_⟩
      rw [commandHash, absorbHash_some (startSeed n (accepted w ws s)) h]
      exact .seeds hd h
    · refine ⟨_, hst.trans (exec_seed_waits n (accepted w ws s) h), ?_⟩
      rw [commandHash, absorbHash_none (startSeed n (accepted w ws s)) h]
      exact .waits hd h
  · rw [stepHash_of_command hp hc hd]
    cases hv : s.keyValid with
    | true => exact ⟨_, hst.trans (exec_read_seeded n (accepted w ws s) hv), .reads hd hv⟩
    | false => exact ⟨_, hst.trans (exec_read_unseeded n (accepted w ws s) hv), .unseeded hd hv⟩

/-- Settles O5: `step_idle_cons` for a word that decodes. -/
theorem stepRunsTheDecodedCommand : Obligations.StepRunsTheDecodedCommand := by
  intro s w ws i hp hc hd
  rw [step_idle_cons s w ws hp hc, hd]

/-- Settles O6: there is no word to accept. -/
theorem idleBlockWaitsForACommand : Obligations.IdleBlockWaitsForACommand := fun s g hp hc => idle_nil g s hp hc

/-! The response (R54). -/

/-- A SEED in ABSORB that has its bytes on offer takes them, makes its hash request and sends its one response (R65). -/
theorem absorbSeed_trace (s : State) (h : s.remain ≤ s.seedIn.length) :
    (absorbSeed s).trace =
      s.trace ++ (List.replicate s.remain .seed ++ [.hash]) ++ [.resp (responseWord .ok true 0)] := by
  simp [absorbSeed_completes s h, h]

/-- Given the bytes it lacks, the waiting SEED completes with its one response (R61, R98). -/
theorem waitingSeed_responds (n : Nat) (s : State) (more : List Byte) (hn : n ≤ s.seedIn.length + more.length) :
    ∃ u es r, step { waitingSeed n s with seedIn := more } = .next u ∧ u.phase = .idle ∧
      u.trace = (waitingSeed n s).trace ++ es ++ [.resp r] ∧ responses es = [] ∧ outBytes es = [] ∧
      respCode r = 0#4 ∧ respSeeded r = 1#1 ∧ respReserved r = 0#3 ∧ respCount r = 0 := by
  have hoffered : n - s.seedIn.length ≤ more.length := by omega
  obtain ⟨hcode, hseeded, hres, hcount⟩ := fields_of_responseWord .ok true 0
  refine ⟨absorbSeed { waitingSeed n s with seedIn := more }, _, _, step_absorb rfl, ?_, absorbSeed_trace _ hoffered,
    by simp, by simp, hcode, hseeded, hres, hcount⟩
  rw [absorbSeed_completes _ hoffered]
  rfl

/-- From `s` to `t` the command of word `w` has run, its one response last, with the fields of R54 and this COUNT. -/
def EndsWithResponse (w : CmdWord) (s t : State) (count : Nat) : Prop :=
  ∃ mid r, t.trace = s.trace ++ .cmd w :: mid ++ [.resp r] ∧ responses mid = [] ∧ commands mid = [] ∧
    respCode r = t.lastCode.bits ∧ respSeeded r = BitVec.ofBool t.keyValid ∧ respReserved r = 0#3 ∧
    respCount r = (outBytes mid).length ∧ respCount r = count

/-- What has moved between word and response is on the other ports, and COUNT is the number of bytes in it. -/
theorem endsWithResponse_of_trace {s t : State} {w : CmdWord} {ws : List CmdWord} {count : Nat} (mid : List Event)
    (htrace : t.trace = (accepted w ws s).trace ++ mid ++ [.resp (responseWord t.lastCode t.keyValid count)])
    (hresp : responses mid = []) (hcmd : commands mid = []) (hout : (outBytes mid).length = count)
    (hfits : count < 2 ^ 56) : EndsWithResponse w s t count := by
  obtain ⟨hcode, hseeded, hres, hcount⟩ := fields_of_responseWord t.lastCode t.keyValid count
  rw [Nat.mod_eq_of_lt hfits] at hcount
  exact ⟨mid, _, by simpa using htrace, hresp, hcmd, hcode, hseeded, hres, hcount.trans hout.symm, hcount⟩

/-- An error responds right after the word (R83). -/
theorem raiseError_endsWithResponse (e : Error) (w : CmdWord) (ws : List CmdWord) (s : State) :
    EndsWithResponse w s (raiseError e (accepted w ws s)) 0 :=
  endsWithResponse_of_trace (ws := ws) [] (by simp [raiseError_eq]) rfl rfl rfl (by decide)

/-- A SEED responds after its bytes and its hash request (R65). -/
theorem afterSeed_endsWithResponse (n : Nat) (k : Key) (rest : List Byte) (w : CmdWord) (ws : List CmdWord) (s : State) :
    EndsWithResponse w s (afterSeed n k rest (accepted w ws s)) 0 :=
  endsWithResponse_of_trace (ws := ws) (List.replicate n .seed ++ [.hash]) (by simp [afterSeed]) (by simp) (by simp)
    (by simp) (by decide)

/-- A successful READ of an encodable length responds after its bytes (R70, R74). -/
theorem afterRead_endsWithResponse (n : Nat) (w : CmdWord) (ws : List CmdWord) (s : State) (hn : n < 2 ^ 56) :
    EndsWithResponse w s (afterRead n (accepted w ws s)) n := by
  obtain ⟨es, hes⟩ := emitMany_spec n (accepted w ws s)
  obtain ⟨hresp, hcmd, -⟩ := emissions_elsewhere hes.kinds
  refine endsWithResponse_of_trace (ws := ws) es ?_ hresp hcmd (by simp [hes.out]) hn
  rw [afterRead_trace, hes.trace, afterRead_keyValid]
  rfl

/-- Settles O8: a SEED short of bytes responds when it has them, every other command in its step. -/
theorem everyCommandEndsWithItsResponse : Obligations.EveryCommandEndsWithItsResponse := by
  intro s w ws hp hc
  obtain ⟨t, hst, hends⟩ := step_commandEnds s w ws hp hc
  refine ⟨t, hst, ?_⟩
  generalize stepHash s = h at hends
  cases hends with
  | waits hd hn =>
    exact .inl ⟨_, hd, hn, rfl, rfl, by simp [waitingSeed], fun more hmore => waitingSeed_responds _ _ more hmore⟩
  | seeds hd hn =>
    simp only [hd]
    exact .inr ⟨rfl, afterSeed_endsWithResponse _ _ _ w ws s⟩
  | reads hd hv =>
    have hv' : s.keyValid = true := hv
    simp only [hd, hv', if_true]
    exact .inr ⟨rfl, afterRead_endsWithResponse _ w ws s (len_of_decode hd)⟩
  | unseeded hd hv =>
    have hv' : s.keyValid = false := hv
    simp only [hd, hv']
    exact .inr ⟨rfl, raiseError_endsWithResponse _ w ws s⟩
  | illegal hd =>
    simp only [hd]
    exact .inr ⟨rfl, raiseError_endsWithResponse _ w ws s⟩

/-! Seed bytes and kernels (R56, R59, R60). -/

/-- The events of a READ's end are on neither the seed channel nor the hash port (R70, R80). -/
theorem afterRead_seedsTaken (n : Nat) (s : State) : seedsTaken (afterRead n s).trace = seedsTaken s.trace := by
  obtain ⟨es, h⟩ := emitMany_spec n s
  obtain ⟨-, -, hseeds, -⟩ := emissions_elsewhere h.kinds
  simp [afterRead_trace, h.trace, hseeds]

@[simp] theorem afterRead_seedIn (n : Nat) (s : State) : (afterRead n s).seedIn = s.seedIn := by
  simp [afterRead, emitMany_frame]

/-- A command word takes the bytes its SEED names, as many as are on offer, and its hash exchange carries exactly those (R56). -/
theorem CommandEnds.takes_seed {w : CmdWord} {a t : State} {h : Option HashExchange} (hends : CommandEnds w a t h) :
    ∃ n, n = (match decode w with
        | .ok (.seed k) => k
        | _ => 0) ∧
      seedsTaken t.trace = seedsTaken a.trace + min n a.seedIn.length ∧ t.seedIn = a.seedIn.drop n ∧
      (h = none ∨ h = some (hashExchange (a.seedIn.take n))) := by
  cases hends with
  | @seeds n hd hn =>
    exact ⟨n, by rw [hd], by simp [afterSeed, hn], rfl, .inr rfl⟩
  | @waits n hd hn =>
    exact ⟨n, by rw [hd], by simp [waitingSeed, hn.le], (List.drop_of_length_le hn.le).symm, .inl rfl⟩
  | reads hd hv => exact ⟨0, by rw [hd], by simp [afterRead_seedsTaken], by simp, .inl rfl⟩
  | unseeded hd hv => exact ⟨0, by rw [hd], by simp [raiseError_eq], rfl, .inl rfl⟩
  | illegal hd => exact ⟨0, by rw [hd], by simp [raiseError_eq], rfl, .inl rfl⟩

/-- A move takes no seed byte, or the first on offer, in ABSORB with some still to take (R61). -/
theorem MovesTo.takes_seed {s t : State} {h : Option HashExchange} (hm : MovesTo s t h) :
    (t.seedIn = s.seedIn ∧ seedsTaken t.trace = seedsTaken s.trace) ∨
    ∃ b, s.phase = .absorb ∧ 0 < s.remain ∧ s.seedIn = b :: t.seedIn ∧ seedsTaken t.trace = seedsTaken s.trace + 1 ∧
      t.phase = .absorb ∧ t.hashMsg = s.hashMsg ++ [b] ∧ t.remain = s.remain - 1 := by
  cases hm with
  | @take b bs hp hr hs => exact .inr ⟨b, hp, hr, by simp [hs], by simp [hs], hp, by simp [hs], by simp [hs]⟩
  | stay => exact .inl ⟨rfl, rfl⟩
  | seed => exact .inl ⟨rfl, by simp [beginSeed]⟩
  | read => exact .inl ⟨rfl, by simp⟩
  | unseeded => exact .inl ⟨rfl, by simp [offerError_eq]⟩
  | illegal => exact .inl ⟨rfl, by simp [offerError_eq]⟩
  | load => exact .inl ⟨rfl, by simp⟩
  | next =>
    obtain ⟨-, -, -, -, -, -, -, hseed, -⟩ := nextByte_frame s
    obtain ⟨es, htrace, -, -, hseeds, -⟩ := nextByte_moves_elsewhere s
    exact .inl ⟨hseed, by simp [htrace, hseeds]⟩
  | out => exact .inl ⟨rfl, by simp [takeOffered]⟩
  | done => exact .inl ⟨rfl, rfl⟩
  | send => exact .inl ⟨rfl, by simp⟩

/-- Settles O46, by the ends of a command and by the moves. -/
theorem seedBytesAreTakenOnlyBySeed : Obligations.SeedBytesAreTakenOnlyBySeed := by
  refine ⟨fun s w ws hp hc => ?_, fun g s => (portStep_movesTo g s).takes_seed⟩
  obtain ⟨t, hst, hends⟩ := step_commandEnds s w ws hp hc
  obtain ⟨n, hn, htaken, hrest, hhash⟩ := hends.takes_seed
  exact ⟨t, n, hst, hn, by simpa using htaken, hrest, hhash⟩

/-- A command word asks the hash kernel by a SEED that has its bytes, once, and the cipher kernel by a READ (R59, R60, R80). -/
theorem CommandEnds.asks_kernels {w : CmdWord} {a t : State} {h : Option HashExchange} (hends : CommandEnds w a t h) :
    h = (match decode w with
      | .ok (.seed n) => if n ≤ a.seedIn.length then some (hashExchange (a.seedIn.take n)) else none
      | _ => none) ∧
    hashRequests t.trace = hashRequests a.trace + h.toList.length ∧
    ((∀ n, decode w ≠ .ok (.read n)) → cipherRequests t.trace = cipherRequests a.trace) := by
  cases hends with
  | seeds hd hn => exact ⟨by rw [hd]; exact (if_pos hn).symm, by simp [afterSeed], fun _ => by simp [afterSeed]⟩
  | waits hd hn =>
    exact ⟨by rw [hd]; exact (if_neg hn.not_ge).symm, by simp [waitingSeed], fun _ => by simp [waitingSeed]⟩
  | reads hd hv => exact ⟨by rw [hd], by simp [afterRead_hashRequests], fun hne => absurd hd (hne _)⟩
  | unseeded hd hv => exact ⟨by rw [hd], by simp [raiseError_eq], fun hne => absurd hd (hne _)⟩
  | illegal hd => exact ⟨by rw [hd], by simp [raiseError_eq], fun _ => by simp [raiseError_eq]⟩

/-- Settles O47, by the ends of a command. -/
theorem kernelsAreAskedOnlyAsStated : Obligations.KernelsAreAskedOnlyAsStated := by
  intro s w ws hp hc
  obtain ⟨t, hst, hends⟩ := step_commandEnds s w ws hp hc
  obtain ⟨hhash, hcount, hcipher⟩ := hends.asks_kernels
  exact ⟨t, hst, hhash, by simpa using hcount, fun hne => by simpa using hcipher hne⟩

end Sys2Proof.Machine
end

section
/-! PROOFS. The whole effect of a READ, and the stretch of the keystream that each READ takes (41_read). -/

namespace Sys2Proof.Machine

/-! One READ (R70, R72, R84). -/

/-- Emit steps write the generator registers but `KEY`, and move events (R73). -/
theorem emitMany_eq (n : Nat) (s : State) : emitMany n s = { s with
    ctr := (emitMany n s).ctr, ksb := (emitMany n s).ksb, cursor := (emitMany n s).cursor,
    trace := (emitMany n s).trace } := by
  have h := emitMany_frame n s
  generalize emitMany n s = t at h ⊢
  obtain ⟨hvalid, hkey, hcode, herr, hphase, hrem, hcmd, hseed, hmsg⟩ := h
  rw [← hvalid, ← hkey, ← hcode, ← herr, ← hphase, ← hrem, ← hcmd, ← hseed, ← hmsg]

/-- The whole effect of a READ of a seeded block, by what its emit steps do (R70). -/
theorem afterRead_eq {n : Nat} {s : State} {es : List Event} (h : Emitted n s (emitMany n s) es) : afterRead n s = { s with
    ctr := LE16 (Block.val s.ctr + refillCount s.cursor n)
    ksb := if refillCount s.cursor n = 0 then s.ksb else keyBlock s.key (Block.val s.ctr + refillCount s.cursor n)
    cursor := (emitMany n s).cursor
    lastCode := .ok
    phase := .idle
    remain := 0
    trace := s.trace ++ es ++ [.resp (responseWord .ok s.keyValid n)] } := by
  rw [afterRead, emitMany_eq, h.ctr, h.ksb, h.trace]
  simp [complete, sendResponse, recordCode, record]

/-- Settles O22: `afterRead` is that state, and its emit steps say what the bytes and the cursor are. -/
theorem seededReadCompletes : Obligations.SeededReadCompletes := by
  intro n s hv
  obtain ⟨es, h⟩ := emitMany_spec n s
  refine ⟨es, (emitMany n s).cursor, ?_, h.cursor, h.out, h.kinds⟩
  rw [exec_read_seeded n s hv, afterRead_eq h, hv]

/-- Settles O24: the error is the completion with code 1 and COUNT 0. -/
theorem unseededReadRaisesUninitializedState : Obligations.UnseededReadRaisesUninitializedState := by
  intro n s hv
  have hword : responseWord .uninitializedState false 0 = 0x1#64 := by decide
  rw [exec_read_unseeded n s hv]
  simp [raiseError_eq, complete, sendResponse, recordCode, record, Error.code, hv, hword]

/-- Settles O33: `refill` by definition, and the load of a SEED leaves the counter 0. -/
theorem refillEncryptsTheIncrementedCounter : Obligations.RefillEncryptsTheIncrementedCounter := by
  refine fun s => ⟨rfl, fun m => ?_⟩
  have hctr : ctrInc (loadSeed m s).ctr = LE16 1 := by rw [loadSeed_ctr, zeroBlock_eq, ctrInc_LE16]
  exact ⟨hctr, congrArg (Config.cipherKernel (deriveKey m)) hctr⟩

/-! READs after a SEED (R77, R78). -/

/-- READs of a seeded block take no seed byte and raise no error (R70). -/
theorem runReads_frame {ns : List Nat} {s u : State} (h : s.keyValid = true) (hrun : runReads ns s = .next u) :
    u.seedIn = s.seedIn ∧ u.errSticky = s.errSticky := by
  induction ns generalizing s with
  | nil => cases hrun; exact ⟨rfl, rfl⟩
  | cons n ns ih =>
    rw [runReads, exec_read_seeded n s h] at hrun
    obtain ⟨hseed, herr⟩ := ih (by rw [afterRead_keyValid, h]) hrun
    exact ⟨by rw [hseed, afterRead_seedIn], by simp [herr, afterRead, emitMany_frame]⟩

/-- From an exhausted block a READ refills once for each block it touches (R80). -/
theorem refillCount_exhausted (n : Nat) : refillCount 16 n = (n + 15) / 16 := by
  unfold refillCount
  split <;> omega

/-- READs leave the key, and the counter as many refills on as their total length needs (R77). -/
theorem ReadsTo.registers {total count : Nat} {s u : State} (h : ReadsTo total count s u) :
    u.key = s.key ∧ u.ctr = LE16 (Block.val s.ctr + refillCount s.cursor total) := by
  obtain ⟨es, hes⟩ := emitMany_spec total s
  obtain ⟨-, hkey, -⟩ := emitMany_frame total s
  exact ⟨(congrArg Generator.key h.generator).trans hkey, (congrArg Generator.ctr h.generator).trans hes.ctr⟩

/-- READs after a SEED have emitted the first bytes of the keystream of its key (R77). -/
theorem ReadsTo.outBytes_afterSeed {total count n : Nat} {k : Key} {rest : List Byte} {s u : State}
    (h : ReadsTo total count (afterSeed n k rest s) u) : outBytes u.trace = outBytes s.trace ++ keystream k total := by
  rw [h.outBytes_eq, Machine.outBytes_afterSeed, keystream]
  exact congrArg _ (List.map_congr_left fun j _ => readByte_afterSeed n k rest s j)

/-- A SEED whose seed `m` is on offer (R65). -/
theorem exec_seed_of_offered {s : State} {m rest : List Byte} (hs : s.seedIn = m ++ rest) :
    exec (.seed m.length) s = .next (afterSeed m.length (deriveKey m) rest s) := by
  have h := exec_seed_completes m.length s (by simp [hs])
  rwa [hs, List.take_left, List.drop_left] at h

/-- Settles O30: the READs after the SEED are one READ of their total length from `afterSeed`. -/
theorem seedThenReadsEmitTheKeystream : Obligations.SeedThenReadsEmitTheKeystream := by
  intro s m rest ns hs
  obtain ⟨u, hruns, hu⟩ := runReads_readsTo ns (afterSeed m.length (deriveKey m) rest s) rfl
  obtain ⟨hseed, herr⟩ := runReads_frame rfl hruns
  obtain ⟨hkey, hctr⟩ := hu.registers
  have hzero : Block.val (afterSeed m.length (deriveKey m) rest s).ctr = 0 := by simp [afterSeed, zeroBlock_eq, val_LE16]
  have hcount : refillCount (afterSeed m.length (deriveKey m) rest s).cursor ns.sum = (ns.sum + 15) / 16 :=
    refillCount_exhausted ns.sum
  refine ⟨_, u, exec_seed_of_offered hs, hruns, hu.outBytes_afterSeed, hseed, hkey, ?_, herr⟩
  rw [hctr, hzero, hcount, Nat.zero_add]

/-- The keystream goes on where its first bytes end. -/
theorem keystream_add (key : Key) (a b : Nat) :
    keystream key (a + b) = keystream key a ++ (keystream key (a + b)).drop a := by
  have hfirst : (keystream key (a + b)).take a = keystream key a := by
    simp [keystream, ← List.map_take, List.take_range]
  rw [← hfirst, List.take_append_drop]

/-- Settles O31: before and after the last READ the bytes emitted are first bytes of the one keystream. -/
theorem eachReadTakesItsStretchOfTheKeystream : Obligations.EachReadTakesItsStretchOfTheKeystream := by
  intro s m rest ns n hs
  obtain ⟨u, hruns, hu⟩ := runReads_readsTo ns (afterSeed m.length (deriveKey m) rest s) rfl
  obtain ⟨v, hread, hv⟩ := read_readsTo n u hu.keyValid
  refine ⟨_, u, v, exec_seed_of_offered hs, hruns, hread, ?_⟩
  rw [(hu.trans hv).outBytes_afterSeed, hu.outBytes_afterSeed, List.append_assoc]
  exact congrArg _ (keystream_add _ _ _)

end Sys2Proof.Machine
end

section
/-! PROOFS. What the ports wait for and where the phases lead (R61), the history that no rule reads (log 8), and several blocks (R91). -/

namespace Sys2Proof.Machine

/-! The port level (R61). -/

/-- Settles O52: each wait is a branch of its phase's move. -/
theorem portWaitsForWhatIsNotGranted : Obligations.PortWaitsForWhatIsNotGranted := by
  refine fun g s => ⟨fun n b hp hg => ?_, fun w hp hg => ?_, fun hp hr hg => ?_, fun hp hr hs => ?_,
    fun n hp hr hc hg => ?_⟩
  · simp [portStep, hp, emitMove, hg]
  · simp [portStep, hp, hg]
  · simp [portStep, hp, absorbMove, hr, hg]
  · simp [portStep, hp, absorbMove, hr.ne', hs]
  · simp [portStep, hp, emitMove, hr.ne', hc, hg]

/-- An error's response word carries a code other than 0 (R82). -/
theorem offerError_phase (e : Error) (s : State) : ∃ w, (offerError e s).phase = .respond w ∧ respCode w ≠ 0#4 := by
  obtain ⟨hcode, -⟩ := fields_of_responseWord e.code s.keyValid 0
  exact ⟨_, rfl, by rw [hcode]; exact e.code_bits_ne_zero⟩

/-- From IDLE (R61). -/
theorem MovesTo.from_idle {s t : State} {h : Option HashExchange} (hm : MovesTo s t h) (hp : s.phase = .idle) :
    t.phase = .idle ∨ (t.phase = .absorb ∧ t.hashMsg = []) ∨
      (∃ n, t.phase = .emit n none ∧ t.remain = n ∧ s.keyValid = true) ∨ ∃ w, t.phase = .respond w ∧ respCode w ≠ 0#4 := by
  cases hm with
  | stay => exact .inl hp
  | seed => exact .inr (.inl ⟨rfl, rfl⟩)
  | @read _ _ n _ _ _ hv => exact .inr (.inr (.inl ⟨n, rfl, rfl, hv⟩))
  | unseeded => exact .inr (.inr (.inr (offerError_phase _ _)))
  | illegal => exact .inr (.inr (.inr (offerError_phase _ _)))
  | take hp' | load hp' | next hp' | out hp' | done hp' | send hp' => simp [hp] at hp'

/-- From ABSORB (R61). -/
theorem MovesTo.from_absorb {s t : State} {h : Option HashExchange} (hm : MovesTo s t h) (hp : s.phase = .absorb) :
    t = s ∨ (∃ b, t.phase = .absorb ∧ t.hashMsg = s.hashMsg ++ [b] ∧ t.remain + 1 = s.remain) ∨
      (s.remain = 0 ∧ t.phase = .respond 0x10#64) := by
  cases hm with
  | stay => exact .inl rfl
  | @take b bs _ hr hs => exact .inr (.inl ⟨b, hp, by simp [hs], by simp [hs]; omega⟩)
  | load _ hr => exact .inr (.inr ⟨hr, congrArg Phase.respond responseWord_ok_seeded_zero⟩)
  | seed hp' | read hp' | unseeded hp' | illegal hp' | next hp' | out hp' | done hp' | send hp' => simp [hp] at hp'

/-- From EMIT with no byte on offer (R61). -/
theorem MovesTo.from_emit {s t : State} {h : Option HashExchange} (hm : MovesTo s t h) {n : Nat}
    (hp : s.phase = .emit n none) :
    t.phase = .emit n none ∨ (∃ b, t.phase = .emit n (some b)) ∨
      (s.remain = 0 ∧ t.phase = .respond (responseWord .ok s.keyValid n)) := by
  cases hm with
  | stay => exact .inl hp
  | next hp' =>
    cases hp.symm.trans hp'
    exact .inr (.inl ⟨_, rfl⟩)
  | done hp' hr =>
    cases hp.symm.trans hp'
    exact .inr (.inr ⟨hr, rfl⟩)
  | seed hp' | read hp' | unseeded hp' | illegal hp' | take hp' | load hp' | out hp' | send hp' => simp [hp] at hp'

/-- From EMIT with a byte on offer (R61). -/
theorem MovesTo.from_emit_offered {s t : State} {h : Option HashExchange} (hm : MovesTo s t h) {n : Nat} {b : Byte}
    (hp : s.phase = .emit n (some b)) : t = s ∨ (t.phase = .emit n none ∧ t.trace = s.trace ++ [.out b]) := by
  cases hm with
  | stay => exact .inl rfl
  | out hp' =>
    cases hp.symm.trans hp'
    exact .inr ⟨rfl, rfl⟩
  | seed hp' | read hp' | unseeded hp' | illegal hp' | take hp' | load hp' | next hp' | done hp' | send hp' =>
    simp [hp] at hp'

/-- From RESPOND (R61). -/
theorem MovesTo.from_respond {s t : State} {h : Option HashExchange} (hm : MovesTo s t h) {w : RespWord}
    (hp : s.phase = .respond w) : t = s ∨ (t.phase = .idle ∧ t.trace = s.trace ++ [.resp w]) := by
  cases hm with
  | stay => exact .inl rfl
  | send hp' =>
    cases hp.symm.trans hp'
    exact .inr ⟨rfl, rfl⟩
  | seed hp' | read hp' | unseeded hp' | illegal hp' | take hp' | load hp' | next hp' | out hp' | done hp' =>
    simp [hp] at hp'

/-- Settles O53, phase by phase. -/
theorem phasesFollowEachOtherAsStated : Obligations.PhasesFollowEachOtherAsStated := fun g s =>
  have hm := portStep_movesTo g s
  ⟨hm.from_idle, hm.from_absorb, fun _ => hm.from_emit, fun _ _ => hm.from_emit_offered, fun _ => hm.from_respond⟩

/-- Outside IDLE no move accepts a word (R61). -/
theorem MovesTo.cmdIn {s t : State} {h : Option HashExchange} (hm : MovesTo s t h) (hp : s.phase ≠ .idle) :
    t.cmdIn = s.cmdIn := by
  cases hm with
  | seed hp' | read hp' | unseeded hp' | illegal hp' => exact absurd hp' hp
  | next =>
    obtain ⟨-, -, -, -, -, -, hcmd, -⟩ := nextByte_frame s
    exact hcmd
  | stay | take | load | out | done | send => rfl

/-- A SEED in ABSORB accepts no word. -/
theorem absorbSeed_commands (s : State) :
    (absorbSeed s).cmdIn = s.cmdIn ∧ commands (absorbSeed s).trace = commands s.trace := by
  rcases le_or_gt s.remain s.seedIn.length with h | h
  · simp [absorbSeed_completes s h]
  · simp [absorbSeed_waits s h]

/-- A READ in EMIT accepts no word. -/
theorem emitRemaining_commands (n : Nat) (s : State) :
    (emitRemaining n s).cmdIn = s.cmdIn ∧ commands (emitRemaining n s).trace = commands s.trace := by
  obtain ⟨-, -, -, hcmdIn, -⟩ := emitRemaining_frame n s
  obtain ⟨es, h⟩ := emitMany_spec s.remain s
  obtain ⟨-, hcmd, -⟩ := emissions_elsewhere h.kinds
  exact ⟨hcmdIn, by simp [emitRemaining, h.trace, hcmd]⟩

theorem takeOffered_commands (o : Option Byte) (s : State) :
    (takeOffered o s).cmdIn = s.cmdIn ∧ commands (takeOffered o s).trace = commands s.trace := by
  cases o <;> simp [takeOffered]

/-- Settles O54: no move and nothing that carries a command on accepts a word. -/
theorem commandPortIsClosedOutsideIdle : Obligations.CommandPortIsClosedOutsideIdle := by
  refine fun s hp => ⟨fun g => (portStep_movesTo g s).cmdIn hp, ?_⟩
  rcases hphase : s.phase with _ | _ | ⟨n, o⟩ | w
  · exact absurd hphase hp
  · exact ⟨_, step_absorb hphase, absorbSeed_commands s⟩
  · obtain ⟨hcmdIn, hcmd⟩ := emitRemaining_commands n (takeOffered o s)
    obtain ⟨hcmdIn', hcmd'⟩ := takeOffered_commands o s
    exact ⟨_, step_emit hphase, hcmdIn.trans hcmdIn', hcmd.trans hcmd'⟩
  · exact ⟨_, step_respond hphase, rfl, by simp⟩

/-! The record of the ports (log 8). -/

/-- The state with a longer history. -/
def withPast (past : List Event) (s : State) : State := { s with trace := past ++ s.trace }

@[simp] theorem withPast_phase (past : List Event) (s : State) : (withPast past s).phase = s.phase := rfl
@[simp] theorem withPast_remain (past : List Event) (s : State) : (withPast past s).remain = s.remain := rfl
@[simp] theorem withPast_seedIn (past : List Event) (s : State) : (withPast past s).seedIn = s.seedIn := rfl
@[simp] theorem withPast_hashMsg (past : List Event) (s : State) : (withPast past s).hashMsg = s.hashMsg := rfl
@[simp] theorem withPast_keyValid (past : List Event) (s : State) : (withPast past s).keyValid = s.keyValid := rfl
@[simp] theorem withPast_cursor (past : List Event) (s : State) : (withPast past s).cursor = s.cursor := rfl

/-! What an operation records comes after the history. -/

theorem loadSeed_withPast (m : List Byte) (past : List Event) (s : State) :
    loadSeed m (withPast past s) = withPast past (loadSeed m s) := by
  simp [loadSeed, record, withPast]

theorem takeSeed_withPast (k : Nat) (past : List Event) (s : State) :
    takeSeed k (withPast past s) = withPast past (takeSeed k s) := by
  simp [takeSeed, record, withPast]

theorem takeOffered_withPast (b : Byte) (past : List Event) (s : State) :
    takeOffered (some b) (withPast past s) = withPast past (takeOffered (some b) s) := by
  simp [takeOffered, record, withPast]

theorem sendResponse_withPast (w : RespWord) (past : List Event) (s : State) :
    sendResponse w (withPast past s) = withPast past (sendResponse w s) := by
  simp [sendResponse, record, withPast]

theorem refill_withPast (past : List Event) (s : State) : refill (withPast past s) = withPast past (refill s) := by
  simp [refill, record, withPast]

theorem nextByte_withPast (past : List Event) (s : State) :
    nextByte (withPast past s) = ((nextByte s).1, withPast past (nextByte s).2) := by
  by_cases hc : s.cursor.val < 16
  · rw [nextByte_of_lt s hc, nextByte_of_lt (withPast past s) hc]
    rfl
  · rw [nextByte_of_exhausted s hc, nextByte_of_exhausted (withPast past s) hc, refill_withPast]
    rfl

theorem beginRead_withPast (n : Nat) (past : List Event) (s : State) :
    beginRead n (withPast past s) = withPast past (beginRead n s) := by
  cases hv : s.keyValid with
  | true => simp only [beginRead, withPast_keyValid, hv, if_true]; rfl
  | false => simp only [beginRead, withPast_keyValid, hv]; rfl

theorem idleMove_withPast (past : List Event) (s : State) :
    idleMove (withPast past s) = withPast past (idleMove s) := by
  cases hc : s.cmdIn with
  | nil => simp [idleMove, acceptCommand, withPast, hc]
  | cons w ws =>
    have haccept : accepted w ws (withPast past s) = withPast past (accepted w ws s) := by simp [withPast]
    simp only [idleMove, acceptCommand_cons s w ws hc, acceptCommand_cons (withPast past s) w ws hc, haccept]
    rcases decode w with _ | (n | n)
    · rfl
    · rfl
    · exact beginRead_withPast n past _

theorem absorbMove_withPast (g : Grant) (past : List Event) (s : State) :
    absorbMove g (withPast past s) = withPast past (absorbMove g s) := by
  by_cases hr : s.remain = 0
  · cases hg : g.hashAnswers with
    | true => simp only [absorbMove, withPast_remain, withPast_hashMsg, loadSeed_withPast, hr, hg, if_true]; rfl
    | false => simp [absorbMove, hr, hg]
  · cases hs : s.seedIn with
    | nil => simp [absorbMove, hr, hs]
    | cons b bs => simp [absorbMove, takeSeed_withPast, hr, hs]

theorem emitMove_withPast (g : Grant) (n : Nat) (o : Option Byte) (past : List Event) (s : State) :
    emitMove g n o (withPast past s) = withPast past (emitMove g n o s) := by
  cases o with
  | some b =>
    cases hg : g.outTaken with
    | true => simp only [emitMove, takeOffered_withPast, hg, if_true]; rfl
    | false => simp [emitMove, hg]
  | none =>
    by_cases hr : s.remain = 0
    · simp only [emitMove, withPast_remain, hr, if_true]; rfl
    · by_cases hc : s.cursor = 16 ∧ g.cipherAnswers = false
      · simp [emitMove, hr, hc]
      · simp only [emitMove, withPast_remain, withPast_cursor, nextByte_withPast, hr, hc, if_false]; rfl

/-- No move reads the history. -/
theorem portStep_withPast (g : Grant) (past : List Event) (s : State) :
    portStep g (withPast past s) = withPast past (portStep g s) := by
  simp only [portStep, withPast_phase]
  rcases s.phase with _ | _ | ⟨n, o⟩ | w
  · exact idleMove_withPast past s
  · exact absorbMove_withPast g past s
  · exact emitMove_withPast g n o past s
  · cases g.respTaken with
    | true => simp [sendResponse_withPast]
    | false => rfl

/-- Nor does a run of moves, or its hash exchanges. -/
theorem portRun_withPast (k : Nat) (past : List Event) (s : State) :
    portRun k (withPast past s) = withPast past (portRun k s) ∧
    portRunHashes k (withPast past s) = portRunHashes k s := by
  induction k generalizing s with
  | zero => exact ⟨rfl, rfl⟩
  | succ k ih =>
    obtain ⟨hrun, hhash⟩ := ih (portStep .all s)
    have hfirst : portHash .all (withPast past s) = portHash .all s := rfl
    simp only [portRun, portRunHashes, portStep_withPast, hrun, hhash, hfirst, and_self]

/-- Settles O43: a step is a run of moves, whose number does not depend on the history either. -/
theorem portHistoryIsNeverRead : Obligations.PortHistoryIsNeverRead := by
  intro s past
  have hcount : stepMoves (withPast past s) = stepMoves s := rfl
  obtain ⟨hstep, hhash⟩ := step_eq_portRun s
  obtain ⟨hstep', hhash'⟩ := step_eq_portRun (withPast past s)
  obtain ⟨hrun, hhashes⟩ := portRun_withPast (stepMoves s) past s
  rw [hcount, hrun] at hstep'
  rw [hcount, hhashes, hhash] at hhash'
  have hsame : stepHash (withPast past s) = stepHash s := by simpa using congrArg List.head? hhash'.symm
  exact ⟨_, hstep, hstep', hsame⟩

/-! Several blocks (R91). -/

/-- Settles O48: the list is written at the place of the block that steps, and nowhere else. -/
theorem instancesShareNothing : Obligations.InstancesShareNothing := by
  intro k blocks s hk
  obtain ⟨hst, -⟩ := step_eq_portRun s
  obtain ⟨hlt, -⟩ := List.getElem?_eq_some_iff.mp hk
  refine ⟨_, blocks.set k (portRun (stepMoves s) s), hst, by simp only [stepInstance, hk, hst], ?_, fun j hj => ?_⟩
  · exact List.getElem?_set_self hlt
  · exact List.getElem?_set_ne hj.symm

end Sys2Proof.Machine
end
